-- ==== Sys2Proof/Word.lean ====
section
/-! DEFINITION. The word types of the block: 32-bit registers and float words, 16-bit fields, bytes, and the
26-bit byte offset of the host port (spec/10_state.md R21, R35, R36; spec/20_memory.md R50). -/

namespace Sys2Proof

/-- A 32-bit register value, command word or FMEM word (R21, R26, R35). -/
abbrev Word := BitVec 32

/-- A 16-bit field value: `NCH` and the four 16-bit header fields (R22, R32). -/
abbrev Half := BitVec 16

/-- One byte of BMEM (R36). -/
abbrev Byte := BitVec 8

/-- A byte offset from the block's base address; bits 25:24 select the address space (R50). -/
abbrev Offset := BitVec 26

end Sys2Proof
end

