-- ==== Sys2Proof/Syntax.lean ====
section
/-! DEFINITION. The nine commands of the block, one constructor per row of spec/opcode_table.json
(spec/30_encoding.md R71). No command has an explicit operand or an immediate (R73). -/

namespace Sys2Proof

/-- The commands of R71. Their operands are the registers, sampled at the `CMD` write (R73). -/
inductive Instr where
  | nop   -- R140: do nothing
  | qnt   -- R97: quantize LEN floats of FMEM into 16-bit PCM in BMEM
  | dqt   -- R98: dequantize LEN 16-bit samples of BMEM into floats in FMEM
  | mrg   -- R111: interleave NCH planar channels of LEN frames
  | sep   -- R112: deinterleave LEN samples into NCH planar channels
  | hbld  -- R121: build the header of LEN samples and NCH channels
  | hpck  -- R124: serialise the header registers into BMEM
  | hupk  -- R125: parse 44 stream bytes into the header registers
  | scnt  -- R126: derive the sample count from data_size
deriving DecidableEq, Repr

end Sys2Proof
end

