-- ==== Sys2Proof/Port.lean ====
section
/-! DEFINITION. The host port's vocabulary: the registers of the REG space (spec/10_state.md R25), the places a
transaction can reach (spec/20_memory.md R50), the events the host can cause (spec/43_system.md R141, R142, R147;
spec/70_reset_and_hazards.md R180) and the lines of the host-script notation (spec/30_encoding.md R75). -/

namespace Sys2Proof

/-- The registers of the REG space (R25). `reserved slot` is the reserved register at offset 4·slot (R31). -/
inductive Reg where
  | cmd | err | flags | ctrl | src | dst | len | nch | blen | capf | capb
  | hdr (k : Fin 13)
  | reserved (slot : Fin 64)
deriving DecidableEq, Repr

/-- Where a legal host transaction lands: a register, an FMEM word or a BMEM byte (R50). -/
inductive Target where
  | reg (r : Reg)
  | fmem (i : Nat)
  | bmem (j : Nat)
deriving DecidableEq, Repr

/-- The width of a host transaction. REG and FMEM allow `word` only, BMEM `byte` only (R51 to R53). -/
inductive AccessWidth where
  | byte | half | word
deriving DecidableEq, Repr

/-- What the host can do to the block in one step: a read or a write transaction at a byte offset from the base
(R12, R142, R147), or asserting `rst` (R180, R194). -/
inductive HostEvent where
  | read (width : AccessWidth) (offset : Offset)
  | write8 (offset : Offset) (data : Byte)
  | write16 (offset : Offset) (data : Half)
  | write32 (offset : Offset) (data : Word)
  | rst
deriving DecidableEq, Repr

/-- The data a read transaction returns to the host: a word from REG and FMEM, a byte from BMEM (R51 to R53). -/
inductive Response where
  | byte (b : Byte)
  | word (w : Word)
deriving DecidableEq, Repr

/-- One line of a host script (R75). -/
inductive ScriptLine where
  | wr (r : Reg) (v : Word)
  | rd (r : Reg)
  | cmd (i : Instr)
  | wf (i : Nat) (w : Word)
  | rf (i : Nat)
  | wb (j : Nat) (b : Byte)
  | rb (j : Nat)
deriving DecidableEq, Repr

end Sys2Proof
end

