-- ==== Sys2Proof/WellFormed.lean ====
section
/-! DEFINITION. The checks on what the host presents: a command word (spec/30_encoding.md R70, R72), a register name
(spec/10_state.md R25, R31) and a script line (spec/30_encoding.md R75). A command itself has no operand field that
could be ill formed (R73). -/

namespace Sys2Proof

/-- Bits 31:8 of a command word, which must be 0 (R70). -/
abbrev reservedBitsClear (w : Word) : Bool := w.extractLsb' 8 24 == 0#24

/-- The opcode, bits 7:0, is one of 0x00 to 0x08 (R71, R72). -/
abbrev opcodeDefined (w : Word) : Bool := decide ((w.extractLsb' 0 8).toNat ≤ 8)

/-- A command word is one of the nine legal ones (R71, R72). -/
def commandWordWellFormed (w : Word) : Bool := reservedBitsClear w && opcodeDefined w

/-- Every command is well formed as syntax: it has no operand, no immediate and no mode bit (R73, R74). -/
def Instr.wellFormed : Instr → Bool
  | .nop => true
  | .qnt => true
  | .dqt => true
  | .mrg => true
  | .sep => true
  | .hbld => true
  | .hpck => true
  | .hupk => true
  | .scnt => true

/-- `reserved slot` names a slot that R31 reserves: offsets 0x2C to 0x3C and 0x74 to 0xFC. -/
def Reg.wellFormed : Reg → Bool
  | .reserved slot => (decide (11 ≤ slot.val) && decide (slot.val ≤ 15)) || decide (29 ≤ slot.val)
  | _ => true

/-- A target that exists: a named or reserved register, an FMEM index below NF or a BMEM index below NB (R50). -/
def Target.wellFormed (capf capb : Nat) : Target → Bool
  | .reg r => r.wellFormed
  | .fmem i => decide (i < capf)
  | .bmem j => decide (j < capb)

/-- A script line whose register exists and whose memory index lies below the capacity (R75, R147). -/
def ScriptLine.wellFormed (capf capb : Nat) : ScriptLine → Bool
  | .wr r _ => r.wellFormed
  | .rd r => r.wellFormed
  | .cmd i => i.wellFormed
  | .wf i _ => decide (i < capf)
  | .rf i => decide (i < capf)
  | .wb j _ => decide (j < capb)
  | .rb j => decide (j < capb)

end Sys2Proof
end

