-- ==== Sys2Proof/Decode.lean ====
section
/-! DEFINITION. The command word: its fields, the decoder and the encoder (spec/30_encoding.md R70 to R72), the
address decoder of the REG space (spec/10_state.md R25) and the encoder of host-script lines (spec/30_encoding.md R75). -/

namespace Sys2Proof

/-- Bits 7:0 of a command word, the field `op` (R70). -/
def commandOp (w : Word) : Byte := w.extractLsb' 0 8

/-- Bits 31:8 of a command word, the field `rsv` (R70). -/
def commandRsv (w : Word) : BitVec 24 := w.extractLsb' 8 24

/-- Why a word is not a command word (R72). -/
inductive DecodeError where
  | reservedBits      -- `rsv` is not 0
  | undefinedOpcode   -- `rsv` is 0 and `op` is 0x09 to 0xFF
deriving DecidableEq, Repr

/-- The command with a given opcode (R71). -/
def instrOfOpcode : Nat → Option Instr
  | 0 => some .nop
  | 1 => some .qnt
  | 2 => some .dqt
  | 3 => some .mrg
  | 4 => some .sep
  | 5 => some .hbld
  | 6 => some .hpck
  | 7 => some .hupk
  | 8 => some .scnt
  | _ => none

/-- The decoder, total on all words, refusing every word but the nine by name (R71, R72). -/
def decode (w : Word) : Except DecodeError Instr :=
  if commandRsv w ≠ 0 then .error .reservedBits
  else match instrOfOpcode (commandOp w).toNat with
    | some i => .ok i
    | none => .error .undefinedOpcode

/-- The command word of a command, from the column "command word" of R71. -/
def encode : Instr → Word
  | .nop => 0x00000000#32
  | .qnt => 0x00000001#32
  | .dqt => 0x00000002#32
  | .mrg => 0x00000003#32
  | .sep => 0x00000004#32
  | .hbld => 0x00000005#32
  | .hpck => 0x00000006#32
  | .hupk => 0x00000007#32
  | .scnt => 0x00000008#32

/-- The 32-bit command word whose low `nbits` bits are those of `w` and whose other bits are 0, as
spec/opcode_table.json numbers them (one word, bit 0 least significant). -/
def tableWord (nbits w : Nat) : Word := BitVec.ofNat 32 (w % 2 ^ nbits)

/-- The command the decoder reads from an opcode-table word; no command is longer than 32 bits (R70). -/
def decodeTableWord (nbits w : Nat) : Option Instr :=
  if nbits ≤ 32 then (decode (tableWord nbits w)).toOption else none

/-- The register at slot number `slot`, the offset divided by 4 (R25, R31). -/
def regOfSlot (slot : Fin 64) : Reg :=
  match slot.val with
  | 0 => .cmd
  | 1 => .err
  | 2 => .flags
  | 3 => .ctrl
  | 4 => .src
  | 5 => .dst
  | 6 => .len
  | 7 => .nch
  | 8 => .blen
  | 9 => .capf
  | 10 => .capb
  | 16 => .hdr 0
  | 17 => .hdr 1
  | 18 => .hdr 2
  | 19 => .hdr 3
  | 20 => .hdr 4
  | 21 => .hdr 5
  | 22 => .hdr 6
  | 23 => .hdr 7
  | 24 => .hdr 8
  | 25 => .hdr 9
  | 26 => .hdr 10
  | 27 => .hdr 11
  | 28 => .hdr 12
  | _ => .reserved slot

/-- The REG offset of a register, the column "offset" of R25. -/
def regOffset : Reg → Nat
  | .cmd => 0x00
  | .err => 0x04
  | .flags => 0x08
  | .ctrl => 0x0C
  | .src => 0x10
  | .dst => 0x14
  | .len => 0x18
  | .nch => 0x1C
  | .blen => 0x20
  | .capf => 0x24
  | .capb => 0x28
  | .hdr k => 0x40 + 4 * k.val
  | .reserved slot => 4 * slot.val

/-- Where an access of a width at an offset lands in a block of capacities `capf` and `capb`; `none` is a bus error:
bits 25:24 select the space (R50), REG and FMEM allow aligned words only and BMEM bytes only (R51 to R54). -/
def locate (capf capb : Nat) (width : AccessWidth) (offset : Offset) : Option Target :=
  let low := (offset.extractLsb' 0 24).toNat
  match (offset.extractLsb' 24 2).toNat with
  | 0 => if low ≤ 0xFF ∧ low % 4 = 0 ∧ width = .word then some (.reg (regOfSlot (Fin.ofNat 64 (low / 4)))) else none
  | 1 => if low / 4 < capf ∧ low % 4 = 0 ∧ width = .word then some (.fmem (low / 4)) else none
  | 2 => if low < capb ∧ width = .byte then some (.bmem low) else none
  | _ => none

/-- The one access width a target allows (R51 to R53). -/
def targetWidth : Target → AccessWidth
  | .reg _ => .word
  | .fmem _ => .word
  | .bmem _ => .byte

/-- The byte offset of a register, of FMEM[i] and of BMEM[j] from the base (R50, R75). -/
def targetOffset : Target → Offset
  | .reg r => BitVec.ofNat 26 (regOffset r)
  | .fmem i => BitVec.ofNat 26 (0x1000000 + 4 * i)
  | .bmem j => BitVec.ofNat 26 (0x2000000 + j)

/-- The transaction a script line stands for (R75). -/
def encodeLine : ScriptLine → HostEvent
  | .wr r v => .write32 (targetOffset (.reg r)) v
  | .rd r => .read .word (targetOffset (.reg r))
  | .cmd i => .write32 (targetOffset (.reg .cmd)) (encode i)
  | .wf i w => .write32 (targetOffset (.fmem i)) w
  | .rf i => .read .word (targetOffset (.fmem i))
  | .wb j b => .write8 (targetOffset (.bmem j)) b
  | .rb j => .read .byte (targetOffset (.bmem j))

end Sys2Proof
end

