-- ==== Sys2Proof/Config.lean ====
section
/-! DEFINITION. What an implementation fixes and what the spec leaves open, as constants without a body: the two
capacities NF and NB (spec/00_scope.md R6) and the contents of the two memories after a reset
(spec/10_state.md R41, spec/93_implementation_defined.md U1). No proof can see their values. -/

namespace Sys2Proof.Config

/-- NF − 1: R6 bounds NF by 1 ≤ NF ≤ 2^22 and leaves it open (U8, log entry 1). -/
opaque nfLessOne : Fin 4194304

/-- NB − 44: R6 bounds NB by 44 ≤ NB ≤ 2^24 and leaves it open (U8, log entry 1). -/
opaque nbLess44 : Fin 16777173

/-- The capacity of FMEM in words (R6). -/
def nf : Nat := nfLessOne.val + 1

/-- The capacity of BMEM in bytes (R6). -/
def nb : Nat := nbLess44.val + 44

/-- The word that FMEM index `i` holds after reset number `epoch` until something writes it: a FREE VALUE
(R41, R68, U1, U3; log entry 2). -/
opaque fmemFree (epoch i : Nat) : Word

/-- The byte that BMEM index `j` holds after reset number `epoch` until something writes it: a FREE VALUE
(R41, R68, U1, U3; log entry 2). -/
opaque bmemFree (epoch j : Nat) : Byte

end Sys2Proof.Config
end

