-- ==== Sys2Proof/Machine/Constants.lean ====
section
/-! DEFINITION. The fixed constants of the hardware (spec/00_scope.md R7, spec/30_encoding.md R82,
spec/42_wave_header.md R122). No register changes them (spec/10_state.md R39). -/

namespace Sys2Proof.Machine

/-- QMAX, the scale and the clipping bound of the quantizer (R7). -/
def qmax : Nat := 32767

/-- SAMPLE_RATE (R7). -/
def sampleRate : Nat := 44100

/-- BYTES_PER_SAMPLE (R7). -/
def bytesPerSample : Nat := 2

/-- BITS_PER_SAMPLE (R7). -/
def bitsPerSample : Nat := 16

/-- FORMAT_PCM, linear PCM (R7). -/
def formatPcm : Nat := 1

/-- FMT_SIZE (R7). -/
def fmtSize : Nat := 16

/-- HEADER_BYTES, the fixed header length (R7, R80). -/
def headerLength : Nat := 44

/-- BYTE_RATE = SAMPLE_RATE × BYTES_PER_SAMPLE, without the channel count (R7, R129). -/
def byteRate : Nat := sampleRate * bytesPerSample

/-- BLOCK_ALIGN, 2 for every channel count (R7, R129). -/
def blockAlign : Nat := 2

/-- MAX_SAMPLES = 2^31 − 19 (R122). -/
def maxSamples : Nat := 2147483629

/-- TAG_RIFF, the bytes 52 49 46 46 read little-endian (R81, R82). -/
def tagRiff : Word := 0x46464952#32

/-- TAG_WAVE, the bytes 57 41 56 45 read little-endian (R81, R82). -/
def tagWave : Word := 0x45564157#32

/-- TAG_FMT, the bytes 66 6D 74 20 read little-endian (R81, R82). -/
def tagFmt : Word := 0x20746D66#32

/-- TAG_DATA, the bytes 64 61 74 61 read little-endian (R81, R82). -/
def tagData : Word := 0x61746164#32

end Sys2Proof.Machine
end

