-- ==== Sys2Proof/Machine/State.lean ====
section
/-! DEFINITION. The architectural state of the block (spec/10_state.md R20) with the host's side of the port, and the
state after reset (spec/10_state.md R41). -/

namespace Sys2Proof.Machine

/-- The four fault kinds `ERR.CODE` can name; codes 5 to 15 are never produced (R160, U6). -/
inductive ErrCode where
  | invalidArgument  -- code 1
  | formatError      -- code 2
  | ioError          -- code 3
  | illegalCommand   -- code 4
deriving DecidableEq, Repr

/-- What a latched fault records: `ERR.CODE` and `ERR.EOP` (R27, R162). -/
structure FaultRecord where
  code : ErrCode
  eop : Byte
deriving DecidableEq, Repr

/-- The four sticky flags, bits 0 to 3 of `FLAGS` (R24). -/
structure Flags where
  sat : Bool
  nanf : Bool
  odd : Bool
  rem : Bool
deriving DecidableEq, Repr

/-- The quantizer's rounding rule, `CTRL.RMODE`: 0 = RNE, 1 = RTZ (R28). -/
inductive RoundMode where
  | rne
  | rtz
deriving DecidableEq, Repr

/-- `CTRL`: the rounding rule and the error interrupt enable (R28). -/
structure Ctrl where
  rmode : RoundMode
  eie : Bool
deriving DecidableEq, Repr

/-- The header field registers `HDR[0..12]` in file order, each at its field's width in the file; a 16-bit field's
register reads zero-extended (R32). -/
structure Header where
  riffId : Word
  fileSize : Word
  waveTag : Word
  fmtId : Word
  fmtSize : Word
  formatCode : Half
  channelCount : Half
  sampleRate : Word
  byteRate : Word
  blockAlign : Half
  bitsPerSample : Half
  dataId : Word
  dataSize : Word
deriving DecidableEq, Repr

/-- A memory as its written cells: index and contents, in one canonical form (`Memory.wf`, Machine/Ops.lean). -/
abbrev Memory (α : Type) := List (Nat × α)

/-- The block's state (R20) and the host's side of the port (R11). -/
structure State where
  /-- `SRC` (R21). -/
  src : Word
  /-- `DST` (R21). -/
  dst : Word
  /-- `LEN` (R21). -/
  len : Word
  /-- `NCH`, 16 bits (R22). -/
  nch : Half
  /-- `FLAGS` (R24). -/
  flags : Flags
  /-- `ERR`: `none` is `ERR` = 0, no fault latched (R27). -/
  err : Option FaultRecord
  /-- `CTRL` (R28). -/
  ctrl : Ctrl
  /-- `BLEN` (R29). -/
  blen : Word
  /-- `HDR[0..12]` (R32). -/
  hdr : Header
  /-- `CAPF`, the constant NF (R30). -/
  capf : Nat
  /-- `CAPB`, the constant NB (R30). -/
  capb : Nat
  /-- `FMEM`: word index and word (R35). -/
  fmem : Memory Word
  /-- `BMEM`: byte index and byte (R36). -/
  bmem : List Host.Cell
  /-- The MODEL'S OWN: how many resets have happened, which selects the free memory contents (log entry 2). -/
  epoch : Nat
  /-- The MODEL'S OWN: the host events still to be performed, first one first (R193, log entry 4). -/
  script : List HostEvent
  /-- The MODEL'S OWN: the data the host's reads have returned so far, first one first (log entry 5). -/
  returned : List Response
deriving DecidableEq, Repr

/-- Reasons for the machine to stop with a fault. There are none: the block's four faults (R160) are latched in `ERR`
and the run goes on (R165), so no constructor exists, and nothing raises one (safe; log entry 6). -/
inductive Fault where
deriving DecidableEq, Repr

/-- Reasons for a step to have no meaning. -/
inductive Refusal where
  /-- Raised by an arm of `exec` for a command without a meaning; none is left (safe). -/
  | notModelled (mnemonic : String)
  /-- Raised by a host transaction that is a bus error: outside the three windows, of a width the space does not
  allow, or misaligned; "it has no step" (R54, U4; safe; log entry 6). -/
  | busError
deriving DecidableEq, Repr

/-- The header registers after reset: all zero, which is not a valid header (R41). -/
def Header.zero : Header where
  riffId := 0
  fileSize := 0
  waveTag := 0
  fmtId := 0
  fmtSize := 0
  formatCode := 0
  channelCount := 0
  sampleRate := 0
  byteRate := 0
  blockAlign := 0
  bitsPerSample := 0
  dataId := 0
  dataSize := 0

/-- The state after power-up reset (R41): every register zero, the capacities NF and NB, no memory cell written
(its contents are free, U1), no host event pending. -/
def State.reset : State where
  src := 0
  dst := 0
  len := 0
  nch := 0
  flags := ⟨false, false, false, false⟩
  err := none
  ctrl := ⟨.rne, false⟩
  blen := 0
  hdr := Header.zero
  capf := Config.nf
  capb := Config.nb
  fmem := []
  bmem := []
  epoch := 0
  script := []
  returned := []

end Sys2Proof.Machine
end

