-- ==== Sys2Proof/Machine/Ops.lean ====
section
/-! DEFINITION. The operations over memories and registers that the commands and the host transactions share:
canonical memory cells, FMEM and BMEM access (spec/20_memory.md R52, R53, R55, R58; spec/00_scope.md R10), the words
the registers read as (spec/10_state.md R24 to R32), raising a fault and returning from it (spec/60_exceptions.md
R165, R167), and reset (spec/70_reset_and_hazards.md R180, R182). -/

namespace Sys2Proof.Machine

/-! Memory cells. `free` gives what an index reads as while no cell lists it. -/

/-- The contents at an index: the listed cell, else the free contents. -/
def Memory.read {α : Type} (free : Nat → α) : Memory α → Nat → α
  | [], a => free a
  | (k, v) :: rest, a => if a = k then v else Memory.read free rest a

/-- Lists a value at an index, in rising order, in place of a cell of that index. -/
def Memory.insert {α : Type} : Memory α → Nat → α → Memory α
  | [], a, v => [(a, v)]
  | (k, x) :: rest, a, v =>
    if a < k then (a, v) :: (k, x) :: rest
    else if a = k then (a, v) :: rest
    else (k, x) :: Memory.insert rest a v

/-- Writes a value at an index; writing what an unlisted index reads as leaves the index unlisted. -/
def Memory.write {α : Type} [DecidableEq α] (free : Nat → α) (m : Memory α) (a : Nat) (v : α) : Memory α :=
  if v = free a then m.filter (fun c => c.1 != a) else m.insert a v

/-- The canonical form: indices strictly rising, and no cell equal to what its index reads as when unlisted. -/
abbrev Memory.wf {α : Type} (free : Nat → α) (m : Memory α) : Prop :=
  m.Pairwise (fun x y => x.1 < y.1) ∧ ∀ c ∈ m, c.2 ≠ free c.1

/-! FMEM and BMEM. -/

/-- FMEM[i] (R35, R52). -/
def State.readF (s : State) (i : Nat) : Word := Memory.read (Config.fmemFree s.epoch) s.fmem i

/-- FMEM[i] <- w (R35, R52). -/
def State.writeF (s : State) (i : Nat) (w : Word) : State :=
  { s with fmem := Memory.write (Config.fmemFree s.epoch) s.fmem i w }

/-- BMEM[j] (R36, R53). -/
def State.readB (s : State) (j : Nat) : Byte := Memory.read (Config.bmemFree s.epoch) s.bmem j

/-- BMEM[j] <- b (R36, R53). -/
def State.writeB (s : State) (j : Nat) (b : Byte) : State :=
  { s with bmem := Memory.write (Config.bmemFree s.epoch) s.bmem j b }

/-- Writes consecutive FMEM words from index `a`. -/
def State.writeWords : State → Nat → List Word → State
  | s, _, [] => s
  | s, a, w :: ws => State.writeWords (s.writeF a w) (a + 1) ws

/-- Writes consecutive BMEM bytes from index `a`. -/
def State.writeBytes : State → Nat → List Byte → State
  | s, _, [] => s
  | s, a, b :: bs => State.writeBytes (s.writeB a b) (a + 1) bs

/-- `MemRead(addr, n)`: the unsigned little-endian number of n bytes of BMEM (R10, R55). -/
def State.memRead (s : State) : Nat → Nat → Nat
  | _, 0 => 0
  | a, n + 1 => (s.readB a).toNat + 256 * State.memRead s (a + 1) n

/-- The n bytes, lowest first, that `MemWrite(addr, n, v)` writes (R10, R55). -/
def leBytes : Nat → Nat → List Byte
  | 0, _ => []
  | n + 1, v => BitVec.ofNat 8 v :: leBytes n (v / 256)

/-- `MemWrite(addr, n, v)` (R10, R55). -/
def State.memWrite (s : State) (a n v : Nat) : State := s.writeBytes a (leBytes n v)

/-! What the registers read as. -/

/-- A one-bit value. -/
def boolBit (b : Bool) (k : Nat) : Word := if b then BitVec.ofNat 32 (2 ^ k) else 0

/-- The number of a fault kind, `ERR.CODE` (R160). -/
def errCodeNumber : ErrCode → Nat
  | .invalidArgument => 1
  | .formatError => 2
  | .ioError => 3
  | .illegalCommand => 4

/-- `ERR.CODE`, 0 when no fault is latched (R27, R160). -/
def State.errCode (s : State) : Nat :=
  match s.err with
  | none => 0
  | some r => errCodeNumber r.code

/-- `ERR.EOP` (R27). -/
def State.errEop (s : State) : Byte :=
  match s.err with
  | none => 0
  | some r => r.eop

/-- `ERR` as a word: CODE in bits 3:0, EOP in bits 15:8, the other bits 0 (R27). -/
def State.errWord (s : State) : Word := BitVec.ofNat 32 (s.errCode + 256 * s.errEop.toNat)

/-- `FLAGS` as a word: SAT, NANF, ODD, REM in bits 0 to 3 (R24). -/
def flagsWord (f : Flags) : Word := boolBit f.sat 0 ||| boolBit f.nanf 1 ||| boolBit f.odd 2 ||| boolBit f.rem 3

/-- `CTRL` as a word: RMODE in bit 0, EIE in bit 1 (R28). -/
def ctrlWord (c : Ctrl) : Word := boolBit (c.rmode == .rtz) 0 ||| boolBit c.eie 1

/-- `HDR[k]`, a 16-bit field zero-extended (R32). -/
def headerRegister (h : Header) (k : Fin 13) : Word :=
  match k with
  | 0 => h.riffId
  | 1 => h.fileSize
  | 2 => h.waveTag
  | 3 => h.fmtId
  | 4 => h.fmtSize
  | 5 => h.formatCode.setWidth 32
  | 6 => h.channelCount.setWidth 32
  | 7 => h.sampleRate
  | 8 => h.byteRate
  | 9 => h.blockAlign.setWidth 32
  | 10 => h.bitsPerSample.setWidth 32
  | 11 => h.dataId
  | 12 => h.dataSize

/-- The output `irq`: a fault is latched and `CTRL.EIE` is 1 (R38, R163). -/
def State.irq (s : State) : Bool := s.err.isSome && s.ctrl.eie

/-! Raising a fault, returning from it, and reset. -/

/-- `raise E`: latches the fault kind and bits 7:0 of the command word, and nothing else (R162, R165). -/
def State.raise (s : State) (code : ErrCode) (eop : Byte) : State := { s with err := some ⟨code, eop⟩ }

/-- A command that raises a fault ends there, having written `ERR` only: the run goes on with the next transaction
(R165). -/
def State.faulted (s : State) (code : ErrCode) (i : Instr) : Host.Outcome State Fault Refusal :=
  .next (s.raise code (commandOp (encode i)))

/-- The return from a fault: a host write to `ERR`, whatever its data, clears it (R143, R167). -/
def State.clearErr (s : State) : State := { s with err := none }

/-- Asserting `rst`: every register takes its reset value, the capacities stay, and every memory cell is free again
(R180, R182, U1; log entry 3). The host's own side of the port is not the block's to reset. -/
def State.rst (s : State) : State :=
  { State.reset with
    capf := s.capf
    capb := s.capb
    epoch := s.epoch + 1
    script := s.script
    returned := s.returned }

end Sys2Proof.Machine
end

