-- ==== Sys2Proof/Machine/Flags.lean ====
section
/-! DEFINITION. The sticky flags: each is set by the command named and cleared only by the host's write of 1
(spec/10_state.md R24, spec/43_system.md R144). -/

namespace Sys2Proof.Machine

/-- QNT's flags: `SAT` and `NANF` are set when some sample asks for it, never cleared (R97, R117). -/
def Flags.addQnt (f : Flags) (sat nan : Bool) : Flags := { f with sat := f.sat || sat, nanf := f.nanf || nan }

/-- SCNT's flag `ODD` (R126). -/
def Flags.addOdd (f : Flags) (odd : Bool) : Flags := { f with odd := f.odd || odd }

/-- SEP's flag `REM` (R112). -/
def Flags.addRem (f : Flags) (rem : Bool) : Flags := { f with rem := f.rem || rem }

/-- W1C: each flag whose bit in the written word is 1 is cleared, the others stay (R144). -/
def Flags.w1c (f : Flags) (v : Word) : Flags where
  sat := f.sat && !v.getLsbD 0
  nanf := f.nanf && !v.getLsbD 1
  odd := f.odd && !v.getLsbD 2
  rem := f.rem && !v.getLsbD 3

end Sys2Proof.Machine
end

