-- ==== Sys2Proof/Machine/Operands.lean ====
section
/-! DEFINITION. The implicit operands of the commands, as the unsigned integers the registers hold
(spec/30_encoding.md R73, spec/00_scope.md R9), and the range and overlap checks a command makes before it touches
memory (spec/20_memory.md R61). All sums are over ℕ and never wrap (R9). -/

namespace Sys2Proof.Machine

/-- `SRC` in an expression (R9, R21). -/
def State.srcN (s : State) : Nat := s.src.toNat

/-- `DST` in an expression (R9, R21). -/
def State.dstN (s : State) : Nat := s.dst.toNat

/-- `LEN` in an expression (R9, R21). -/
def State.lenN (s : State) : Nat := s.len.toNat

/-- `NCH` in an expression (R9, R22). -/
def State.nchN (s : State) : Nat := s.nch.toNat

/-- `BLEN` in an expression (R9, R29). -/
def State.blenN (s : State) : Nat := s.blen.toNat

/-- The FMEM range [a, a + m) leaves FMEM; an empty range is checked with the same formula (R61). -/
abbrev State.outsideF (s : State) (a m : Nat) : Prop := s.capf < a + m

/-- The BMEM write range [a, a + m) leaves BMEM (R61). -/
abbrev State.outsideB (s : State) (a m : Nat) : Prop := s.capb < a + m

/-- The BMEM read range [a, a + m) leaves the valid stream (R61). -/
abbrev State.outsideStream (s : State) (a m : Nat) : Prop := s.blenN < a + m

/-- The word ranges [a, a + m) and [b, b + k) share a word; an empty range shares none (R111, R112). -/
abbrev rangesOverlap (a m b k : Nat) : Prop := 0 < m ∧ 0 < k ∧ a < b + k ∧ b < a + m

end Sys2Proof.Machine
end

