-- ==== Sys2Proof/Machine/Codec.lean ====
section
/-! DEFINITION. The sample codec: the binary32 sample word (spec/30_encoding.md R78, R79), the quantizer and the
dequantizer with their commands QNT and DQT (spec/40_sample_codec.md R90 to R98). The arithmetic is R92's integer-only
form: a magnitude is a fraction of two naturals, exact, rounded once. -/

namespace Sys2Proof.Machine

/-! The binary32 sample word. -/

/-- The sign bit s = w[31] (R78). -/
def sampleSign (w : Word) : Bool := w.getLsbD 31

/-- The biased exponent E = w[30:23] (R78). -/
def sampleExp (w : Word) : Nat := (w.extractLsb' 23 8).toNat

/-- The fraction f = w[22:0] (R78). -/
def sampleFrac (w : Word) : Nat := (w.extractLsb' 0 23).toNat

/-- w[30:0], by which binary32 magnitudes are ordered (R79). -/
def sampleMagnitude (w : Word) : Nat := (w.extractLsb' 0 31).toNat

/-- The five classes of R78. -/
inductive SampleClass where
  | zero | subnormal | normal | infinity | nan
deriving DecidableEq, Repr

/-- The class of a sample word (R78). -/
def classify (w : Word) : SampleClass :=
  if sampleExp w = 0 then (if sampleFrac w = 0 then .zero else .subnormal)
  else if sampleExp w = 255 then (if sampleFrac w = 0 then .infinity else .nan)
  else .normal

/-- The integer significand M: f if E = 0, else 2^23 + f (R92). -/
def significand (w : Word) : Nat := if sampleExp w = 0 then sampleFrac w else 2 ^ 23 + sampleFrac w

/-- The numerator of |scaled(w)| = M · 32767 · 2^x, where x = −149 if E = 0, else E − 150 (R92). -/
def scaledNum (w : Word) : Nat := significand w * qmax * 2 ^ (sampleExp w - 150)

/-- The denominator of |scaled(w)|, 2^−x where x < 0 and 1 otherwise (R92). -/
def scaledDen (w : Word) : Nat := 2 ^ (150 - max (sampleExp w) 1)

/-! Rounding a non-negative fraction num/den to an integer. Both rules are odd (R90, R91), so a sign is applied after. -/

/-- `rne_int` of num/den: the nearest integer, ties to the even one (R90). -/
def rneDiv (num den : Nat) : Nat :=
  if 2 * (num % den) < den then num / den
  else if den < 2 * (num % den) then num / den + 1
  else num / den + num / den % 2

/-- `rtz_int` of num/den: the fractional part is discarded (R91). -/
def rtzDiv (num den : Nat) : Nat := num / den

/-- The rounding rule `CTRL.RMODE` selects (R93). -/
def roundDiv : RoundMode → Nat → Nat → Nat
  | .rne, num, den => rneDiv num den
  | .rtz, num, den => rtzDiv num den

/-- A magnitude with a sign. -/
def signed (neg : Bool) (m : Nat) : Int := if neg then -(m : Int) else (m : Int)

/-! The quantizer. -/

/-- The triple (q, sat, nan) of R93. -/
structure Quantized where
  q : Int
  sat : Bool
  nan : Bool
deriving DecidableEq, Repr

/-- `quant` of a finite word: exact product, one rounding, then the clamp to ±32767; `sat` when |v| > 1, that is when
w[30:0] > 0x3F800000 (R79, R92, R93). -/
def quantFinite (w : Word) (rm : RoundMode) : Quantized where
  q := signed (sampleSign w) (min (roundDiv rm (scaledNum w) (scaledDen w)) qmax)
  sat := decide (0x3F800000 < sampleMagnitude w)
  nan := false

/-- `quant(w, rm)` (R93). -/
def quant (w : Word) (rm : RoundMode) : Quantized :=
  match classify w with
  | .nan => ⟨0, false, true⟩
  | .infinity => ⟨signed (sampleSign w) qmax, true, false⟩
  | .zero => quantFinite w rm
  | .subnormal => quantFinite w rm
  | .normal => quantFinite w rm

/-- `pack16(q)`: the low and the high byte of u16(q) (R77, R94). -/
def pack16 (q : Int) : Byte × Byte := ((BitVec.ofInt 16 q).extractLsb' 0 8, (BitVec.ofInt 16 q).extractLsb' 8 8)

/-- `unpack16(b0, b1)`: the signed value of b1 : b0 (R94). -/
def unpack16 (b0 b1 : Byte) : Int := (b1 ++ b0 : BitVec 16).toInt

/-! The dequantizer. -/

/-- The biased exponent of the binade of num/den: the largest E, from a start value down, with
2^(E − 127) ≤ num/den (R95). -/
def binadeExp (num den : Nat) : Nat → Nat
  | 0 => 0
  | E + 1 => if den * 2 ^ (E + 1) ≤ num * 2 ^ 127 then E + 1 else binadeExp num den E

/-- `round_f32` of ±num/den: M = rne_int(m × 2^23) with m = |ρ| / 2^e and biased exponent E = e + 127, carrying into
the exponent when M = 2^24 (R95). -/
def roundF32 (neg : Bool) (num den : Nat) : Word :=
  if num = 0 then 0
  else
    let E := binadeExp num den 254
    let M := rneDiv (num * 2 ^ 150) (den * 2 ^ E)
    let E' := if M = 2 ^ 24 then E + 1 else E
    let M' := if M = 2 ^ 24 then 2 ^ 23 else M
    BitVec.ofNat 32 ((if neg then 2 ^ 31 else 0) + E' * 2 ^ 23 + (M' - 2 ^ 23))

/-- `dequant(q)` = round_f32(q / 32767), whatever `CTRL.RMODE` says (R96). -/
def dequant (q : Int) : Word := roundF32 (decide (q < 0)) q.natAbs qmax

/-! QNT. -/

/-- The results of QNT, one per sample, in order (R97). -/
def State.qntResults (s : State) : List Quantized :=
  (List.range s.lenN).map fun i => quant (s.readF (s.srcN + i)) s.ctrl.rmode

/-- The bytes QNT writes from DST on, two per sample, low byte first (R97). -/
def State.qntBytes (s : State) : List Byte :=
  s.qntResults.flatMap fun r => [(pack16 r.q).1, (pack16 r.q).2]

/-- The flags after QNT (R97). -/
def State.qntFlags (s : State) : Flags :=
  s.flags.addQnt (s.qntResults.any Quantized.sat) (s.qntResults.any Quantized.nan)

/-- `BLEN` raised to the end of a write, never lowered (R29, R97, R124). -/
def State.raisedBlen (s : State) (last : Nat) : Word := BitVec.ofNat 32 (max s.blenN last)

/-- QNT after its checks: the bytes, the flags, and BLEN when LEN > 0 (R97). -/
def State.qntStore (s : State) : State :=
  { s.writeBytes s.dstN s.qntBytes with
    flags := s.qntFlags
    blen := if 0 < s.lenN then s.raisedBlen (s.dstN + 2 * s.lenN) else s.blen }

/-- QNT: quantize LEN float samples of FMEM into 16-bit PCM in BMEM (R97). -/
def execQnt (s : State) : Host.Outcome State Fault Refusal :=
  if s.outsideF s.srcN s.lenN then s.faulted .ioError .qnt
  else if s.outsideB s.dstN (2 * s.lenN) then s.faulted .ioError .qnt
  else .next s.qntStore

/-! DQT. -/

/-- The words DQT writes from DST on (R98). -/
def State.dqtWords (s : State) : List Word :=
  (List.range s.lenN).map fun i =>
    dequant (unpack16 (s.readB (s.srcN + 2 * i)) (s.readB (s.srcN + 2 * i + 1)))

/-- DQT: dequantize LEN 16-bit PCM samples of BMEM into floats in FMEM (R98). -/
def execDqt (s : State) : Host.Outcome State Fault Refusal :=
  if s.outsideStream s.srcN (2 * s.lenN) then s.faulted .formatError .dqt
  else if s.outsideF s.dstN s.lenN then s.faulted .ioError .dqt
  else .next (s.writeWords s.dstN s.dqtWords)

end Sys2Proof.Machine
end

