-- ==== Sys2Proof/Machine/Interleaver.lean ====
section
/-! DEFINITION. The channel interleaver: MRG and SEP (spec/41_channel_interleaver.md R110 to R117). Both move 32-bit
patterns and interpret none (R116). -/

namespace Sys2Proof.Machine

/-- T = C·L, the number of words MRG moves (R111). -/
def State.mrgCount (s : State) : Nat := s.nchN * s.lenN

/-- The interleaved output of MRG: the word at index t = i·C + c is channel c = t mod C, sample i = t div C, of the
planar block (R110, R111, R115). -/
def State.mrgWords (s : State) : List Word :=
  (List.range s.mrgCount).map fun t => s.readF (s.srcN + t % s.nchN * s.lenN + t / s.nchN)

/-- MRG: interleave NCH planar channels of LEN frames each (R111). -/
def execMrg (s : State) : Host.Outcome State Fault Refusal :=
  if s.nchN = 0 then s.faulted .invalidArgument .mrg
  else if rangesOverlap s.srcN s.mrgCount s.dstN s.mrgCount then s.faulted .invalidArgument .mrg
  else if s.outsideF s.srcN s.mrgCount then s.faulted .ioError .mrg
  else if s.outsideF s.dstN s.mrgCount then s.faulted .ioError .mrg
  else .next (s.writeWords s.dstN s.mrgWords)

/-- Lq = N div C, the length of every output channel of SEP (R112). -/
def State.sepLen (s : State) : Nat := s.lenN / s.nchN

/-- T = C·Lq, the number of words SEP moves (R112). -/
def State.sepCount (s : State) : Nat := s.nchN * s.sepLen

/-- The planar output of SEP: the word at index t = c·Lq + k is sample k·C + c of the interleaved input
(R110, R112). -/
def State.sepWords (s : State) : List Word :=
  (List.range s.sepCount).map fun t => s.readF (s.srcN + t % s.sepLen * s.nchN + t / s.sepLen)

/-- SEP after its checks: the words, and `REM` when samples were dropped (R112). -/
def State.sepStore (s : State) : State :=
  { s.writeWords s.dstN s.sepWords with flags := s.flags.addRem (decide (s.lenN % s.nchN ≠ 0)) }

/-- SEP: deinterleave LEN samples into NCH planar channels (R112). -/
def execSep (s : State) : Host.Outcome State Fault Refusal :=
  if s.nchN = 0 then s.faulted .invalidArgument .sep
  else if rangesOverlap s.srcN s.lenN s.dstN s.sepCount then s.faulted .invalidArgument .sep
  else if s.outsideF s.srcN s.lenN then s.faulted .ioError .sep
  else if s.outsideF s.dstN s.sepCount then s.faulted .ioError .sep
  else .next s.sepStore

end Sys2Proof.Machine
end

