-- ==== Sys2Proof/Machine/System.lean ====
section
/-! DEFINITION. The command NOP (spec/43_system.md R140). The host transactions are in Machine/Transactions.lean. -/

namespace Sys2Proof.Machine

/-- NOP: do nothing (R140). -/
def execNop (s : State) : Host.Outcome State Fault Refusal := .next s

end Sys2Proof.Machine
end

