-- ==== Sys2Proof/Machine/WaveHeader.lean ====
section
/-! DEFINITION. The WAVE header unit: HBLD, HPCK, HUPK and SCNT (spec/42_wave_header.md R120 to R129) over the layout
of spec/30_encoding.md R80. -/

namespace Sys2Proof.Machine

/-- `build(n, C)`: the thirteen fields of a sample count and a channel count (R120). Only `file_size`,
`channel_count` and `data_size` depend on them. -/
def buildHeader (n : Nat) (c : Half) : Header where
  riffId := tagRiff
  fileSize := BitVec.ofNat 32 (headerLength - 8 + bytesPerSample * n)
  waveTag := tagWave
  fmtId := tagFmt
  fmtSize := BitVec.ofNat 32 fmtSize
  formatCode := BitVec.ofNat 16 formatPcm
  channelCount := c
  sampleRate := BitVec.ofNat 32 sampleRate
  byteRate := BitVec.ofNat 32 byteRate
  blockAlign := BitVec.ofNat 16 blockAlign
  bitsPerSample := BitVec.ofNat 16 bitsPerSample
  dataId := tagData
  dataSize := BitVec.ofNat 32 (bytesPerSample * n)

/-- HBLD: build the header of LEN samples and NCH channels into the header registers (R121). -/
def execHbld (s : State) : Host.Outcome State Fault Refusal :=
  if s.nchN = 0 then s.faulted .invalidArgument .hbld
  else if maxSamples < s.lenN then s.faulted .invalidArgument .hbld
  else .next { s with hdr := buildHeader s.lenN s.nch }

/-- The 44 bytes of the header registers: each field little-endian at its declared width, in the order and with the
sizes of R80, so at R80's offsets (R124). -/
def headerBytes (h : Header) : List Byte :=
  leBytes 4 h.riffId.toNat
    ++ leBytes 4 h.fileSize.toNat
    ++ leBytes 4 h.waveTag.toNat
    ++ leBytes 4 h.fmtId.toNat
    ++ leBytes 4 h.fmtSize.toNat
    ++ leBytes 2 h.formatCode.toNat
    ++ leBytes 2 h.channelCount.toNat
    ++ leBytes 4 h.sampleRate.toNat
    ++ leBytes 4 h.byteRate.toNat
    ++ leBytes 2 h.blockAlign.toNat
    ++ leBytes 2 h.bitsPerSample.toNat
    ++ leBytes 4 h.dataId.toNat
    ++ leBytes 4 h.dataSize.toNat

/-- HPCK after its check: the 44 bytes from DST on, and BLEN raised to their end (R124). -/
def State.hpckStore (s : State) : State :=
  { s.writeBytes s.dstN (headerBytes s.hdr) with blen := BitVec.ofNat 32 (max s.blenN (s.dstN + headerLength)) }

/-- HPCK: serialise the thirteen header registers as 44 bytes into BMEM, valid or not (R124). -/
def execHpck (s : State) : Host.Outcome State Fault Refusal :=
  if s.outsideB s.dstN headerLength then s.faulted .ioError .hpck
  else .next s.hpckStore

/-- A 4-byte field of BMEM as a register value (R125). -/
def State.readField32 (s : State) (a : Nat) : Word := BitVec.ofNat 32 (s.memRead a 4)

/-- A 2-byte field of BMEM; the register reads it zero-extended (R125, R32). -/
def State.readField16 (s : State) (a : Nat) : Half := BitVec.ofNat 16 (s.memRead a 2)

/-- The header parsed from the 44 bytes at index `a` (R125). -/
def State.parseHeader (s : State) (a : Nat) : Header where
  riffId := s.readField32 (a + 0)
  fileSize := s.readField32 (a + 4)
  waveTag := s.readField32 (a + 8)
  fmtId := s.readField32 (a + 12)
  fmtSize := s.readField32 (a + 16)
  formatCode := s.readField16 (a + 20)
  channelCount := s.readField16 (a + 22)
  sampleRate := s.readField32 (a + 24)
  byteRate := s.readField32 (a + 28)
  blockAlign := s.readField16 (a + 32)
  bitsPerSample := s.readField16 (a + 34)
  dataId := s.readField32 (a + 36)
  dataSize := s.readField32 (a + 40)

/-- The four tags of a header are the tag constants (R125). -/
abbrev Header.tagsOk (h : Header) : Prop :=
  h.riffId = tagRiff ∧ h.waveTag = tagWave ∧ h.fmtId = tagFmt ∧ h.dataId = tagData

/-- HUPK: parse 44 bytes of the stream into the header registers, checking the length and the four tags only
(R125, R128). -/
def execHupk (s : State) : Host.Outcome State Fault Refusal :=
  if s.outsideStream s.srcN headerLength then s.faulted .formatError .hupk
  else if (s.parseHeader s.srcN).tagsOk then .next { s with hdr := s.parseHeader s.srcN }
  else s.faulted .formatError .hupk

/-- SCNT: LEN takes data_size div 2, and `ODD` is set when data_size is odd (R126). -/
def execScnt (s : State) : Host.Outcome State Fault Refusal :=
  .next { s with
    len := BitVec.ofNat 32 (s.hdr.dataSize.toNat / 2)
    flags := s.flags.addOdd (decide (s.hdr.dataSize.toNat % 2 = 1)) }

end Sys2Proof.Machine
end

