-- ==== Sys2Proof/Machine/Dispatch.lean ====
section
/-! DEFINITION. The commands' meanings, one arm per constructor of Instr (spec/30_encoding.md R71). -/

namespace Sys2Proof.Machine

/-- What a command does once dispatch has selected it (R141); the latch is checked before, in `State.command`. -/
def exec (i : Instr) (s : State) : Host.Outcome State Fault Refusal :=
  match i with
  | .nop => Sys2Proof.Machine.execNop s
  | .qnt => Sys2Proof.Machine.execQnt s
  | .dqt => Sys2Proof.Machine.execDqt s
  | .mrg => Sys2Proof.Machine.execMrg s
  | .sep => Sys2Proof.Machine.execSep s
  | .hbld => Sys2Proof.Machine.execHbld s
  | .hpck => Sys2Proof.Machine.execHpck s
  | .hupk => Sys2Proof.Machine.execHupk s
  | .scnt => Sys2Proof.Machine.execScnt s

end Sys2Proof.Machine
end

