-- ==== Sys2Proof/Machine/Transactions.lean ====
section
/-! DEFINITION. What the host can do to the block: command dispatch (spec/43_system.md R141), register transactions
(R142 to R146), memory transactions (R147), bus errors (spec/20_memory.md R54) and reset (spec/70_reset_and_hazards.md
R180); and performing the next event of the host's script (R193). -/

namespace Sys2Proof.Machine

/-- A host write of w to `CMD`: dropped while a fault is latched, `ILLEGAL_COMMAND` for a word that is not one of the
nine, else the command, all in one atomic step (R141, R166). -/
def State.command (s : State) (w : Word) : Host.Outcome State Fault Refusal :=
  match s.err with
  | some _ => .next s
  | none =>
    match decode w with
    | .error _ => .next (s.raise .illegalCommand (commandOp w))
    | .ok i => exec i s

/-- What a host read of a register returns; a read changes nothing (R142). -/
def State.regRead (s : State) : Reg → Word
  | .cmd => 0
  | .err => s.errWord
  | .flags => flagsWord s.flags
  | .ctrl => ctrlWord s.ctrl
  | .src => s.src
  | .dst => s.dst
  | .len => s.len
  | .nch => s.nch.setWidth 32
  | .blen => s.blen
  | .capf => BitVec.ofNat 32 s.capf
  | .capb => BitVec.ofNat 32 s.capb
  | .hdr k => headerRegister s.hdr k
  | .reserved _ => 0

/-- A host write of v to `BLEN` stores min(v, NB) (R145). -/
def State.writeBlen (s : State) (v : Word) : State := { s with blen := BitVec.ofNat 32 (min v.toNat s.capb) }

/-- A host write of v to `CTRL` stores v[1:0] (R146). -/
def State.writeCtrl (s : State) (v : Word) : State :=
  { s with ctrl := ⟨if v.getLsbD 0 then .rtz else .rne, v.getLsbD 1⟩ }

/-- A host write of v to a register, performed whether or not a fault is latched; writes to `CAPF`, `CAPB`, `HDR[k]`
and reserved offsets are ignored (R142). -/
def State.regWrite (s : State) (r : Reg) (v : Word) : Host.Outcome State Fault Refusal :=
  match r with
  | .cmd => s.command v
  | .err => .next s.clearErr
  | .flags => .next { s with flags := s.flags.w1c v }
  | .ctrl => .next (s.writeCtrl v)
  | .src => .next { s with src := v }
  | .dst => .next { s with dst := v }
  | .len => .next { s with len := v }
  | .nch => .next { s with nch := v.extractLsb' 0 16 }
  | .blen => .next (s.writeBlen v)
  | .capf => .next s
  | .capb => .next s
  | .hdr _ => .next s
  | .reserved _ => .next s

/-- The data a read transaction returns from where it lands (R52, R53, R142, R147). -/
def State.targetRead (s : State) : Target → Response
  | .reg r => .word (s.regRead r)
  | .fmem i => .word (s.readF i)
  | .bmem j => .byte (s.readB j)

/-- One event of the host, an atomic step (R11). A transaction that `locate` does not place is a bus error and is
refused (R54). -/
def perform (e : HostEvent) (s : State) : Host.Outcome State Fault Refusal :=
  match e with
  | .read width offset =>
    match locate s.capf s.capb width offset with
    | some t => .next { s with returned := s.returned ++ [s.targetRead t] }
    | none => .refused .busError
  | .write8 offset data =>
    match locate s.capf s.capb .byte offset with
    | some (.bmem j) => .next (s.writeB j data)
    | _ => .refused .busError
  | .write16 _ _ => .refused .busError
  | .write32 offset data =>
    match locate s.capf s.capb .word offset with
    | some (.reg r) => s.regWrite r data
    | some (.fmem i) => .next (s.writeF i data)
    | _ => .refused .busError
  | .rst => .next s.rst

/-- Performs the next event of the host's script. With none left the run has ended (R193) and the block stays as it
is: its state does not change by itself (R149). -/
def State.performNext (s : State) : Host.Outcome State Fault Refusal :=
  match s.script with
  | [] => .next s
  | e :: rest => perform e { s with script := rest }

/-- Puts `WR CMD, w` (R75) in front of the host's script, so that the next step performs it (log entry 4). -/
def State.presentCommand (s : State) (w : Word) : State :=
  { s with script := .write32 (targetOffset (.reg .cmd)) w :: s.script }

end Sys2Proof.Machine
end

