-- ==== Sys2Proof/Machine/Step.lean ====
section
/-! DEFINITION. One step of the machine: the host's next event, performed atomically (spec/00_scope.md R11,
spec/70_reset_and_hazards.md R193). -/

namespace Sys2Proof.Machine

/-- One step: the next event of the host's script (R11, R193). -/
def step (s : State) : Host.Outcome State Fault Refusal := s.performNext

/-- The state with an opcode-table word presented as the host's next `CMD` write. The block fetches nothing (R23): the
command word is the data of that write (R64; log entry 4). -/
def State.withFetchWord (s : State) (nbits w : Nat) : State := s.presentCommand (tableWord nbits w)

end Sys2Proof.Machine
end

