-- ==== Sys2Proof/Machine/Macros.lean ====
section
/-! DEFINITION. The five pseudo-instructions (spec/30_encoding.md R76) as host-script lines
(spec/44_file_sequences.md R150, R153, R156; spec/43_system.md R143). The block executes only their expansions. -/

namespace Sys2Proof.Machine

/-- `CLRERR` (R76, R143). -/
def clrErrLines : List ScriptLine := [.wr .err 0]

/-- `ENCODE s, n, d` (R156). -/
def encodeLines (s n d : Word) : List ScriptLine := [.wr .src s, .wr .len n, .wr .dst d, .cmd .qnt]

/-- `DECODE s, n, d` (R156). -/
def decodeLines (s n d : Word) : List ScriptLine := [.wr .src s, .wr .len n, .wr .dst d, .cmd .dqt]

/-- `WAVWRITE s, n, C` (R150). -/
def wavWriteLines (s n c : Word) : List ScriptLine :=
  [.wr .blen 0, .wr .src s, .wr .len n, .wr .nch c, .cmd .hbld, .wr .dst 0, .cmd .hpck,
   .wr .dst (BitVec.ofNat 32 headerLength), .cmd .qnt, .rd .err]

/-- `WAVREAD d` (R153). -/
def wavReadLines (d : Word) : List ScriptLine :=
  [.wr .src 0, .cmd .hupk, .cmd .scnt, .wr .src (BitVec.ofNat 32 headerLength), .wr .dst d, .cmd .dqt, .rd .err]

/-- The transactions a list of script lines stands for, in order (R75). -/
def expandLines (ls : List ScriptLine) : List HostEvent := ls.map encodeLine

end Sys2Proof.Machine
end

