-- ==== Sys2Proof/Machine/Reference.lean ====
section
/-! DEFINITION. The numeric functions of the codec as the spec writes them, over the rationals, for the claims to
compare the integer model with: f32_val (spec/30_encoding.md R79), rne_int, rtz_int, scaled, clamp, quant and
round_f32 (spec/40_sample_codec.md R90 to R95; spec/00_scope.md R9); and the header image as literal bytes
(spec/30_encoding.md R85). No command is defined through them. -/

namespace Sys2Proof.Machine

/-- (−1)^s. -/
def signFactor (neg : Bool) : ℚ := if neg then -1 else 1

/-- f32_val(w) of a finite word: (−1)^s · f · 2^−149 when E = 0, else (−1)^s · (2^23 + f) · 2^(E−150) (R79). -/
def f32Val (w : Word) : ℚ :=
  if sampleExp w = 0 then signFactor (sampleSign w) * (sampleFrac w : ℚ) * (2 : ℚ) ^ (-149 : ℤ)
  else signFactor (sampleSign w) * (2 ^ 23 + (sampleFrac w : ℚ)) * (2 : ℚ) ^ ((sampleExp w : ℤ) - 150)

/-- The word is finite: a zero, a subnormal or a normal (R78). -/
abbrev isFinite (w : Word) : Prop := sampleExp w ≠ 255

/-- rne_int(p): the nearest integer, and at a tie the even one (R90). -/
def rneInt (p : ℚ) : ℤ :=
  if p - ⌊p⌋ < 1 / 2 then ⌊p⌋
  else if 1 / 2 < p - ⌊p⌋ then ⌊p⌋ + 1
  else if ⌊p⌋ % 2 = 0 then ⌊p⌋ else ⌊p⌋ + 1

/-- rtz_int(p): the fractional part is discarded (R91). -/
def rtzInt (p : ℚ) : ℤ := if 0 ≤ p then ⌊p⌋ else -⌊-p⌋

/-- The rounding that rm selects (R93). -/
def roundInt : RoundMode → ℚ → ℤ
  | .rne, p => rneInt p
  | .rtz, p => rtzInt p

/-- clamp(r, lo, hi) (R9). -/
def clamp (r lo hi : ℤ) : ℤ := if r < lo then lo else if hi < r then hi else r

/-- The pseudocode of quant(w, rm) (R93). -/
def quantSpec (w : Word) (rm : RoundMode) : Quantized :=
  if sampleExp w = 255 ∧ sampleFrac w ≠ 0 then ⟨0, false, true⟩
  else if sampleExp w = 255 ∧ sampleSign w = false then ⟨32767, true, false⟩
  else if sampleExp w = 255 ∧ sampleSign w = true then ⟨-32767, true, false⟩
  else ⟨clamp (roundInt rm (f32Val w * 32767)) (-32767) 32767, decide (1 < |f32Val w|), false⟩

/-- The word with sign s, unbiased exponent e and significand 2^23 ≤ M < 2^24 (R95). -/
def assembleF32 (ρ : ℚ) (e M : ℤ) : Word :=
  BitVec.ofInt 32 ((if ρ < 0 then 2 ^ 31 else 0) + (e + 127) * 2 ^ 23 + (M - 2 ^ 23))

/-- `w` is what the pseudocode of round_f32(ρ) returns (R95). -/
def IsRoundF32 (ρ : ℚ) (w : Word) : Prop :=
  if ρ = 0 then w = 0
  else ∃ e : ℤ, (2 : ℚ) ^ e ≤ |ρ| ∧ |ρ| < (2 : ℚ) ^ (e + 1) ∧
    w = if rneInt (|ρ| / 2 ^ e * 2 ^ 23) = 2 ^ 24 then assembleF32 ρ (e + 1) (2 ^ 23)
        else assembleF32 ρ e (rneInt (|ρ| / 2 ^ e * 2 ^ 23))

/-- The header image of build(n, C) as bytes: F = 36 + 2n and D = 2n in four little-endian bytes, C in two (R85). -/
def headerImage (n c : Nat) : List Byte :=
  [0x52#8, 0x49#8, 0x46#8, 0x46#8] ++ leBytes 4 (36 + 2 * n)
    ++ [0x57#8, 0x41#8, 0x56#8, 0x45#8, 0x66#8, 0x6D#8, 0x74#8, 0x20#8, 0x10#8, 0x00#8, 0x00#8, 0x00#8, 0x01#8, 0x00#8]
    ++ leBytes 2 c
    ++ [0x44#8, 0xAC#8, 0x00#8, 0x00#8, 0x88#8, 0x58#8, 0x01#8, 0x00#8, 0x02#8, 0x00#8, 0x10#8, 0x00#8]
    ++ [0x64#8, 0x61#8, 0x74#8, 0x61#8] ++ leBytes 4 (2 * n)

end Sys2Proof.Machine
end

