-- ==== Sys2Proof/Safety.lean ====
section
/-! DEFINITION. What the claims call a legal state, a fault of the table and a clean run: the capacities' ranges (spec/00_scope.md R6), the
bound of BLEN (spec/10_state.md R29), the canonical form of the memories, the header registers' contents
(spec/92_eei_decisions.md D41), and a clean end (spec/70_reset_and_hazards.md R193). -/

namespace Sys2Proof.Machine

/-- NF and NB lie in the ranges of R6. -/
abbrev State.capacitiesOk (s : State) : Prop :=
  1 ≤ s.capf ∧ s.capf ≤ 2 ^ 22 ∧ 44 ≤ s.capb ∧ s.capb ≤ 2 ^ 24

/-- FMEM is in canonical form and lists no index at or above NF (R35). -/
abbrev State.fmemOk (s : State) : Prop :=
  Memory.wf (Config.fmemFree s.epoch) s.fmem ∧ ∀ c ∈ s.fmem, c.1 < s.capf

/-- BMEM is in canonical form and lists no index at or above NB (R36). -/
abbrev State.bmemOk (s : State) : Prop :=
  Memory.wf (Config.bmemFree s.epoch) s.bmem ∧ ∀ c ∈ s.bmem, c.1 < s.capb

/-- The header registers hold zeros or a header with the four tags; they are written by HBLD and HUPK only (R33,
R34). -/
abbrev State.headerOk (s : State) : Prop := s.hdr = Header.zero ∨ s.hdr.tagsOk

/-- The states the machine can be in: the capacities are in range (R6), BLEN ≤ NB (R29), both memories are in
canonical form inside their capacities (R35, R36), and the header registers hold zeros or a tagged header (R33). -/
structure State.Inv (s : State) : Prop where
  capacities : s.capacitiesOk
  blenBound : s.blenN ≤ s.capb
  fmemForm : s.fmemOk
  bmemForm : s.bmemOk
  headerForm : s.headerOk

/-- The rows of the fault table: the checks of each command in the order made, each with its fault (R161). -/
def faultRows (s : State) : Instr → List (Bool × ErrCode)
  | .nop => []
  | .qnt => [(decide (s.srcN + s.lenN > s.capf), .ioError), (decide (s.dstN + 2 * s.lenN > s.capb), .ioError)]
  | .dqt => [(decide (s.srcN + 2 * s.lenN > s.blenN), .formatError), (decide (s.dstN + s.lenN > s.capf), .ioError)]
  | .mrg =>
    let total := s.nchN * s.lenN
    [(decide (s.nchN = 0), .invalidArgument),
     (decide (total > 0 ∧ s.srcN < s.dstN + total ∧ s.dstN < s.srcN + total), .invalidArgument),
     (decide (s.srcN + total > s.capf), .ioError),
     (decide (s.dstN + total > s.capf), .ioError)]
  | .sep =>
    let total := s.nchN * (s.lenN / s.nchN)
    [(decide (s.nchN = 0), .invalidArgument),
     (decide (s.lenN > 0 ∧ total > 0 ∧ s.srcN < s.dstN + total ∧ s.dstN < s.srcN + s.lenN), .invalidArgument),
     (decide (s.srcN + s.lenN > s.capf), .ioError),
     (decide (s.dstN + total > s.capf), .ioError)]
  | .hbld => [(decide (s.nchN = 0), .invalidArgument), (decide (s.lenN > 2147483629), .invalidArgument)]
  | .hpck => [(decide (s.dstN + 44 > s.capb), .ioError)]
  | .hupk =>
    [(decide (s.srcN + 44 > s.blenN), .formatError),
     (decide (s.memRead s.srcN 4 ≠ 0x46464952 ∨ s.memRead (s.srcN + 8) 4 ≠ 0x45564157 ∨
       s.memRead (s.srcN + 12) 4 ≠ 0x20746D66 ∨ s.memRead (s.srcN + 36) 4 ≠ 0x61746164), .formatError)]
  | .scnt => []

/-- The fault of the first check that fails (R164). -/
def firstFault (rows : List (Bool × ErrCode)) : Option ErrCode := (rows.find? Prod.fst).map Prod.snd

/-- A run ends clean when no fault is latched (R193). -/
abbrev State.clean (s : State) : Prop := s.err = none

/-- The offset of `CMD`, where commands are written (R26). -/
abbrev cmdOffset : Offset := 0x0000000#26

/-- The host's next event is the write of a command word to `CMD` (R141). -/
abbrev State.nextIsCommand (s : State) (w : Word) (rest : List HostEvent) : Prop :=
  s.script = .write32 cmdOffset w :: rest

end Sys2Proof.Machine
end

