-- ==== Sys2Proof/Certificates/Slice0/Obligations.lean ====
section
/-! DEFINITION. The statements about the model, from the spec's numbered rules: encodings and dispatch, the host's
transactions, the nine commands with their completions, faults and frames, the whole-machine rules, and the numeric
functions of the codec. -/

open Sys2Proof Sys2Proof.Machine

/-! Encodings, dispatch and the step. -/

/-- R71: a word selects a command exactly when it equals the command's word in the opcode map. -/
def Obligations.DecodeReadsExactlyTheNineWords : Prop :=
  (encode .nop = 0x00000000#32 ∧ encode .qnt = 0x00000001#32 ∧ encode .dqt = 0x00000002#32 ∧
    encode .mrg = 0x00000003#32 ∧ encode .sep = 0x00000004#32 ∧ encode .hbld = 0x00000005#32 ∧
    encode .hpck = 0x00000006#32 ∧ encode .hupk = 0x00000007#32 ∧ encode .scnt = 0x00000008#32) ∧
  ∀ (w : Word) (i : Instr), decode w = .ok i ↔ w = encode i

/-- A few words of the opcode table, through the decoder and the table's numbering (R71, R72). -/
def Obligations.SampleWordsDecode : Prop :=
  decode 0x00000001#32 = .ok .qnt ∧ decode 0x00000004#32 = .ok .sep ∧ decode 0x00000007#32 = .ok .hupk ∧
  decode 0x00000000#32 = .ok .nop ∧ decodeTableWord 32 5 = some .hbld ∧ decodeTableWord 32 0x101 = none ∧
  decode 0x80000001#32 = .error .reservedBits ∧ decode 0x00000009#32 = .error .undefinedOpcode

/-- R50 to R53, R75: an access of a width at an offset is placed at a target exactly when the target exists, the width
is the one it allows and the offset is the one the notation gives it; every other access is placed nowhere. -/
def Obligations.EveryPlacedAccessIsOneTarget : Prop :=
  ∀ (capf capb : Nat) (width : AccessWidth) (offset : Offset) (t : Target), capf ≤ 2 ^ 22 → capb ≤ 2 ^ 24 →
    (locate capf capb width offset = some t ↔
      t.wellFormed capf capb = true ∧ width = targetWidth t ∧ offset = targetOffset t)

/-- R141: with no fault latched, the step of a `CMD` write whose word decodes to `i` is `exec i` at the state with that
event taken off the host's script. -/
def Obligations.StepRunsTheDecodedCommand : Prop :=
  ∀ (s : State) (w : Word) (i : Instr) (rest : List HostEvent),
    s.nextIsCommand w rest → s.err = none → decode w = .ok i →
    step s = exec i { s with script := rest }

/-- R141, R166: while a fault is latched a `CMD` write of any word, legal or not, changes nothing. -/
def Obligations.CommandIsDroppedWhileLatched : Prop :=
  ∀ (s : State) (w : Word) (rest : List HostEvent),
    s.nextIsCommand w rest → s.err ≠ none → step s = .next { s with script := rest }

/-- R72: the words that are none of the nine are those with a reserved bit set or an opcode above 8, and such a word
latches ILLEGAL_COMMAND with its low byte when no fault is latched. -/
def Obligations.IllegalCommandWordIsLatched : Prop :=
  (∀ w : Word, (∀ i, w ≠ encode i) ↔ (w.extractLsb' 8 24 ≠ 0 ∨ 8 < (w.extractLsb' 0 8).toNat)) ∧
  ∀ (s : State) (w : Word) (rest : List HostEvent),
    s.nextIsCommand w rest → s.err = none → (∀ i, w ≠ encode i) →
    step s = .next { s with script := rest, err := some ⟨.illegalCommand, w.extractLsb' 0 8⟩ }

/-- R149, R193: with no host event left the state does not change. -/
def Obligations.IdleBlockKeepsItsState : Prop :=
  ∀ s : State, s.script = [] → step s = .next s

/-! Host transactions and reset. -/

/-- R142: what a host read of each register returns, and that the read changes nothing but the host's own record. -/
def Obligations.RegisterReadReturnsItsWord : Prop :=
  ∀ (s : State) (r : Reg) (rest : List HostEvent),
    s.capacitiesOk → r.wellFormed = true → s.script = .read .word (targetOffset (.reg r)) :: rest →
    ∃ v : Word, step s = .next { s with script := rest, returned := s.returned ++ [.word v] } ∧
      match r with
      | .cmd => v = 0
      | .err => v.toNat = s.errCode + 2 ^ 8 * s.errEop.toNat
      | .flags => v.toNat = s.flags.sat.toNat + 2 * s.flags.nanf.toNat + 4 * s.flags.odd.toNat + 8 * s.flags.rem.toNat
      | .ctrl => v.toNat = (decide (s.ctrl.rmode = .rtz)).toNat + 2 * s.ctrl.eie.toNat
      | .src => v = s.src
      | .dst => v = s.dst
      | .len => v = s.len
      | .nch => v.toNat = s.nch.toNat
      | .blen => v = s.blen
      | .capf => v.toNat = s.capf
      | .capb => v.toNat = s.capb
      | .hdr k => v.toNat =
          [s.hdr.riffId.toNat, s.hdr.fileSize.toNat, s.hdr.waveTag.toNat, s.hdr.fmtId.toNat, s.hdr.fmtSize.toNat,
            s.hdr.formatCode.toNat, s.hdr.channelCount.toNat, s.hdr.sampleRate.toNat, s.hdr.byteRate.toNat,
            s.hdr.blockAlign.toNat, s.hdr.bitsPerSample.toNat, s.hdr.dataId.toNat, s.hdr.dataSize.toNat][k.val]!
      | .reserved _ => v = 0

/-- R27, R160: `ERR` after a fault reads as the code of the fault's kind with the low byte of the command word in bits
15:8, and as 0 when none is latched. -/
def Obligations.ErrReadsCodeAndOpcode : Prop :=
  ∀ (s : State) (op : Byte),
    (s.raise .invalidArgument op).errWord.toNat = 1 + 256 * op.toNat ∧
    (s.raise .formatError op).errWord.toNat = 2 + 256 * op.toNat ∧
    (s.raise .ioError op).errWord.toNat = 3 + 256 * op.toNat ∧
    (s.raise .illegalCommand op).errWord.toNat = 4 + 256 * op.toNat ∧
    s.clearErr.errWord = 0

/-- R143: any write to `ERR` clears it, lowers `irq`, lets commands run again and changes nothing else. -/
def Obligations.WriteErrClearsTheLatch : Prop :=
  ∀ (s : State) (v : Word) (rest : List HostEvent),
    s.script = .write32 0x0000004#26 v :: rest →
    ∃ t, step s = .next t ∧ t = { s with script := rest, err := none } ∧
      t.errCode = 0 ∧ t.errEop = 0 ∧ t.errWord = 0 ∧ t.irq = false ∧
      (∀ i, t.command (encode i) = exec i t) ∧
      (s.err = none → t = { s with script := rest })

/-- R144: a write to `FLAGS` clears each flag whose bit is 1 and leaves the others. -/
def Obligations.WriteFlagsClearsWrittenOnes : Prop :=
  ∀ (s : State) (v : Word) (rest : List HostEvent),
    s.script = .write32 0x0000008#26 v :: rest →
    ∃ t, step s = .next t ∧ t = { s with script := rest, flags := t.flags } ∧
      t.flags.sat = (if v.getLsbD 0 then false else s.flags.sat) ∧
      t.flags.nanf = (if v.getLsbD 1 then false else s.flags.nanf) ∧
      t.flags.odd = (if v.getLsbD 2 then false else s.flags.odd) ∧
      t.flags.rem = (if v.getLsbD 3 then false else s.flags.rem)

/-- R145: a write of v to `BLEN` stores min(v, NB) and does not touch BMEM. -/
def Obligations.WriteBlenStoresTheMinimum : Prop :=
  ∀ (s : State) (v : Word) (rest : List HostEvent),
    s.script = .write32 0x0000020#26 v :: rest →
    ∃ t, step s = .next t ∧ t = { s with script := rest, blen := t.blen } ∧ t.blen.toNat = min v.toNat s.capb

/-- R146, R38: a write of v to `CTRL` stores its bits 1:0, and `irq` follows the new enable at once. -/
def Obligations.WriteCtrlStoresTwoBits : Prop :=
  ∀ (s : State) (v : Word) (rest : List HostEvent),
    s.script = .write32 0x000000C#26 v :: rest →
    ∃ t, step s = .next t ∧ t = { s with script := rest, ctrl := t.ctrl } ∧
      (t.ctrl.rmode = .rtz ↔ v.getLsbD 0 = true) ∧ t.ctrl.eie = v.getLsbD 1 ∧
      (t.irq = true ↔ s.err ≠ none ∧ v.getLsbD 1 = true)

/-- R21, R22, R142: a write to an operand register stores its data, `NCH` only the low 16 bits. -/
def Obligations.WriteOperandRegisterStoresIt : Prop :=
  ∀ (s : State) (v : Word) (rest : List HostEvent),
    (s.script = .write32 0x0000010#26 v :: rest → step s = .next { s with script := rest, src := v }) ∧
    (s.script = .write32 0x0000014#26 v :: rest → step s = .next { s with script := rest, dst := v }) ∧
    (s.script = .write32 0x0000018#26 v :: rest → step s = .next { s with script := rest, len := v }) ∧
    (s.script = .write32 0x000001C#26 v :: rest →
      ∃ t, step s = .next t ∧ t = { s with script := rest, nch := t.nch } ∧ t.nch.toNat = v.toNat % 2 ^ 16)

/-- R30, R31, R33, R142: writes to `CAPF`, `CAPB`, `HDR[k]` and reserved offsets change nothing and raise no fault. -/
def Obligations.ReadOnlyRegistersIgnoreWrites : Prop :=
  ∀ (s : State) (v : Word) (offset : Nat) (rest : List HostEvent),
    offset % 4 = 0 → 0x24 ≤ offset → offset ≤ 0xFC →
    s.script = .write32 (BitVec.ofNat 26 offset) v :: rest → step s = .next { s with script := rest }

/-- R52, R53, R147: `WF`, `RF`, `WB` and `RB` below the capacities write the one word or byte, or return it, and change
nothing else, a latched fault or not. -/
def Obligations.MemoryTransactionsReachOneCell : Prop :=
  ∀ (s : State) (rest : List HostEvent), s.capacitiesOk →
    (∀ (i : Nat) (w : Word), i < s.capf → s.script = .write32 (BitVec.ofNat 26 (0x1000000 + 4 * i)) w :: rest →
      ∃ t, step s = .next t ∧ t = { s with script := rest, fmem := t.fmem } ∧ t.readF i = w ∧
        ∀ k, k ≠ i → t.readF k = s.readF k) ∧
    (∀ i : Nat, i < s.capf → s.script = .read .word (BitVec.ofNat 26 (0x1000000 + 4 * i)) :: rest →
      step s = .next { s with script := rest, returned := s.returned ++ [.word (s.readF i)] }) ∧
    (∀ (j : Nat) (b : Byte), j < s.capb → s.script = .write8 (BitVec.ofNat 26 (0x2000000 + j)) b :: rest →
      ∃ t, step s = .next t ∧ t = { s with script := rest, bmem := t.bmem } ∧ t.readB j = b ∧
        ∀ k, k ≠ j → t.readB k = s.readB k) ∧
    (∀ j : Nat, j < s.capb → s.script = .read .byte (BitVec.ofNat 26 (0x2000000 + j)) :: rest →
      step s = .next { s with script := rest, returned := s.returned ++ [.byte (s.readB j)] })

/-- R50 to R54: a transaction is refused as a bus error exactly when its offset lies outside the three windows or its
width or alignment is not the window's; every other one gives a next state. -/
def Obligations.BusErrorIsRefused : Prop :=
  ∀ (s : State) (e : HostEvent) (width : AccessWidth) (offset : Offset) (rest : List HostEvent),
    s.capacitiesOk → s.script = e :: rest →
    (e = .read width offset ∨ (width = .byte ∧ ∃ d, e = .write8 offset d) ∨
      (width = .half ∧ ∃ d, e = .write16 offset d) ∨ (width = .word ∧ ∃ d, e = .write32 offset d)) →
    if (offset.toNat ≤ 0xFF ∧ offset.toNat % 4 = 0 ∧ width = .word) ∨
        (0x1000000 ≤ offset.toNat ∧ offset.toNat < 0x1000000 + 4 * s.capf ∧ offset.toNat % 4 = 0 ∧ width = .word) ∨
        (0x2000000 ≤ offset.toNat ∧ offset.toNat < 0x2000000 + s.capb ∧ width = .byte)
    then ∃ t, step s = .next t
    else step s = .refused .busError

/-- R180, R182: `rst` zeroes every register, lowers `irq`, keeps the capacities and leaves every memory cell free. -/
def Obligations.RstPutsRegistersToReset : Prop :=
  ∀ (s : State) (rest : List HostEvent), s.script = .rst :: rest →
    ∃ t, step s = .next t ∧
      t.src = 0 ∧ t.dst = 0 ∧ t.len = 0 ∧ t.nch = 0 ∧ flagsWord t.flags = 0 ∧ t.errWord = 0 ∧ ctrlWord t.ctrl = 0 ∧
      t.blen = 0 ∧ (∀ k, headerRegister t.hdr k = 0) ∧ t.capf = s.capf ∧ t.capb = s.capb ∧ t.irq = false ∧
      (∀ i, t.readF i = Config.fmemFree (s.epoch + 1) i) ∧ (∀ j, t.readB j = Config.bmemFree (s.epoch + 1) j) ∧
      t.script = rest ∧ t.returned = s.returned

/-- R41: the state after power-up reset. -/
def Obligations.ResetStateHoldsTheResetValues : Prop :=
  State.reset.src = 0 ∧ State.reset.dst = 0 ∧ State.reset.len = 0 ∧ State.reset.nch = 0 ∧
  flagsWord State.reset.flags = 0 ∧ State.reset.errWord = 0 ∧ State.reset.errCode = 0 ∧
  State.reset.ctrl.rmode = .rne ∧ State.reset.ctrl.eie = false ∧ State.reset.blen = 0 ∧
  (∀ k, headerRegister State.reset.hdr k = 0) ∧ State.reset.capf = Config.nf ∧ State.reset.capb = Config.nb ∧
  State.reset.irq = false ∧ (∀ i, State.reset.readF i = Config.fmemFree 0 i) ∧
  (∀ j, State.reset.readB j = Config.bmemFree 0 j)

/-! The commands: completion with the result and the frame. -/

/-- R140: NOP completes and changes nothing, and its `CMD` write leaves no trace, a latched fault or not. -/
def Obligations.NopChangesNothing : Prop :=
  (∀ s : State, exec .nop s = .next s) ∧
  ∀ (s : State) (rest : List HostEvent), s.nextIsCommand 0x00000000#32 rest →
    step s = .next { s with script := rest }

/-- R97: with both ranges inside the memories QNT completes: the two bytes of every sample, the flags, BLEN, and
nothing else. -/
def Obligations.QntCompletesInRange : Prop :=
  ∀ s : State, s.capacitiesOk → s.srcN + s.lenN ≤ s.capf → s.dstN + 2 * s.lenN ≤ s.capb →
    ∃ t, exec .qnt s = .next t ∧
      (∀ i < s.lenN,
        t.readB (s.dstN + 2 * i) = (pack16 (quant (s.readF (s.srcN + i)) s.ctrl.rmode).q).1 ∧
        t.readB (s.dstN + 2 * i + 1) = (pack16 (quant (s.readF (s.srcN + i)) s.ctrl.rmode).q).2) ∧
      (∀ j, (j < s.dstN ∨ s.dstN + 2 * s.lenN ≤ j) → t.readB j = s.readB j) ∧
      (t.flags.sat = true ↔
        s.flags.sat = true ∨ ∃ i < s.lenN, (quant (s.readF (s.srcN + i)) s.ctrl.rmode).sat = true) ∧
      (t.flags.nanf = true ↔
        s.flags.nanf = true ∨ ∃ i < s.lenN, (quant (s.readF (s.srcN + i)) s.ctrl.rmode).nan = true) ∧
      t.blenN = (if s.lenN = 0 then s.blenN else max s.blenN (s.dstN + 2 * s.lenN)) ∧
      t = { s with
        bmem := t.bmem
        blen := t.blen
        flags := { s.flags with sat := t.flags.sat, nanf := t.flags.nanf } }

/-- R98: with the bytes in the stream and the destination in FMEM, DQT completes: one word per sample, and nothing
else. -/
def Obligations.DqtCompletesInRange : Prop :=
  ∀ s : State, s.srcN + 2 * s.lenN ≤ s.blenN → s.dstN + s.lenN ≤ s.capf →
    ∃ t, exec .dqt s = .next t ∧
      (∀ i < s.lenN,
        t.readF (s.dstN + i) = dequant (unpack16 (s.readB (s.srcN + 2 * i)) (s.readB (s.srcN + 2 * i + 1)))) ∧
      (∀ k, (k < s.dstN ∨ s.dstN + s.lenN ≤ k) → t.readF k = s.readF k) ∧
      t = { s with fmem := t.fmem }

/-- R111: with NCH > 0, disjoint ranges and both inside FMEM, MRG completes: the interleaved words, and nothing
else. -/
def Obligations.MrgCompletesOnDisjointRanges : Prop :=
  ∀ s : State, s.nchN ≠ 0 →
    ¬ (0 < s.nchN * s.lenN ∧ s.srcN < s.dstN + s.nchN * s.lenN ∧ s.dstN < s.srcN + s.nchN * s.lenN) →
    s.srcN + s.nchN * s.lenN ≤ s.capf → s.dstN + s.nchN * s.lenN ≤ s.capf →
    ∃ t, exec .mrg s = .next t ∧
      (∀ i < s.lenN, ∀ c < s.nchN,
        t.readF (s.dstN + i * s.nchN + c) = s.readF (s.srcN + c * s.lenN + i)) ∧
      (∀ k, (k < s.dstN ∨ s.dstN + s.nchN * s.lenN ≤ k) → t.readF k = s.readF k) ∧
      t = { s with fmem := t.fmem }

/-- R112: with NCH > 0, disjoint ranges and both inside FMEM, SEP completes: the planar words, `REM` when samples were
dropped, and nothing else. -/
def Obligations.SepCompletesOnDisjointRanges : Prop :=
  ∀ s : State, s.nchN ≠ 0 →
    ¬ (0 < s.lenN ∧ 0 < s.nchN * (s.lenN / s.nchN) ∧ s.srcN < s.dstN + s.nchN * (s.lenN / s.nchN) ∧
      s.dstN < s.srcN + s.lenN) →
    s.srcN + s.lenN ≤ s.capf → s.dstN + s.nchN * (s.lenN / s.nchN) ≤ s.capf →
    ∃ t, exec .sep s = .next t ∧
      (∀ c < s.nchN, ∀ k < s.lenN / s.nchN,
        t.readF (s.dstN + c * (s.lenN / s.nchN) + k) = s.readF (s.srcN + k * s.nchN + c)) ∧
      (∀ k, (k < s.dstN ∨ s.dstN + s.nchN * (s.lenN / s.nchN) ≤ k) → t.readF k = s.readF k) ∧
      (t.flags.rem = true ↔ s.flags.rem = true ∨ s.lenN % s.nchN ≠ 0) ∧
      t = { s with fmem := t.fmem, flags := { s.flags with rem := t.flags.rem } }

/-- R120 to R123: with NCH > 0 and LEN ≤ 2147483629 HBLD completes with the thirteen fields, none of them cut to its
width, and nothing else. -/
def Obligations.HbldBuildsTheHeader : Prop :=
  ∀ s : State, s.nchN ≠ 0 → s.lenN ≤ 2147483629 →
    ∃ t, exec .hbld s = .next t ∧
      t.hdr.riffId = 0x46464952#32 ∧ t.hdr.fileSize.toNat = 36 + 2 * s.lenN ∧ t.hdr.waveTag = 0x45564157#32 ∧
      t.hdr.fmtId = 0x20746D66#32 ∧ t.hdr.fmtSize.toNat = 16 ∧ t.hdr.formatCode.toNat = 1 ∧
      t.hdr.channelCount = s.nch ∧ t.hdr.sampleRate.toNat = 44100 ∧ t.hdr.byteRate.toNat = 88200 ∧
      t.hdr.blockAlign.toNat = 2 ∧ t.hdr.bitsPerSample.toNat = 16 ∧ t.hdr.dataId = 0x61746164#32 ∧
      t.hdr.dataSize.toNat = 2 * s.lenN ∧ t = { s with hdr := t.hdr }

/-- R124, R80: when the 44 bytes fit below NB, HPCK completes: every field little-endian at its offset and width, BLEN
raised to their end, and nothing else. -/
def Obligations.HpckSerialisesTheHeader : Prop :=
  ∀ s : State, s.capacitiesOk → s.dstN + 44 ≤ s.capb →
    ∃ t, exec .hpck s = .next t ∧
      t.memRead (s.dstN + 0) 4 = s.hdr.riffId.toNat ∧ t.memRead (s.dstN + 4) 4 = s.hdr.fileSize.toNat ∧
      t.memRead (s.dstN + 8) 4 = s.hdr.waveTag.toNat ∧ t.memRead (s.dstN + 12) 4 = s.hdr.fmtId.toNat ∧
      t.memRead (s.dstN + 16) 4 = s.hdr.fmtSize.toNat ∧ t.memRead (s.dstN + 20) 2 = s.hdr.formatCode.toNat ∧
      t.memRead (s.dstN + 22) 2 = s.hdr.channelCount.toNat ∧ t.memRead (s.dstN + 24) 4 = s.hdr.sampleRate.toNat ∧
      t.memRead (s.dstN + 28) 4 = s.hdr.byteRate.toNat ∧ t.memRead (s.dstN + 32) 2 = s.hdr.blockAlign.toNat ∧
      t.memRead (s.dstN + 34) 2 = s.hdr.bitsPerSample.toNat ∧ t.memRead (s.dstN + 36) 4 = s.hdr.dataId.toNat ∧
      t.memRead (s.dstN + 40) 4 = s.hdr.dataSize.toNat ∧
      (∀ j, (j < s.dstN ∨ s.dstN + 44 ≤ j) → t.readB j = s.readB j) ∧
      t.blenN = max s.blenN (s.dstN + 44) ∧
      t = { s with bmem := t.bmem, blen := t.blen }

/-- R125: when the 44 bytes lie in the stream and the four tags are right, HUPK completes with the thirteen parsed
fields, and nothing else. -/
def Obligations.HupkParsesTheHeader : Prop :=
  ∀ s : State, s.srcN + 44 ≤ s.blenN →
    s.memRead s.srcN 4 = 0x46464952 → s.memRead (s.srcN + 8) 4 = 0x45564157 →
    s.memRead (s.srcN + 12) 4 = 0x20746D66 → s.memRead (s.srcN + 36) 4 = 0x61746164 →
    ∃ t, exec .hupk s = .next t ∧
      t.hdr.riffId = 0x46464952#32 ∧ t.hdr.fileSize.toNat = s.memRead (s.srcN + 4) 4 ∧
      t.hdr.waveTag = 0x45564157#32 ∧ t.hdr.fmtId = 0x20746D66#32 ∧
      t.hdr.fmtSize.toNat = s.memRead (s.srcN + 16) 4 ∧ t.hdr.formatCode.toNat = s.memRead (s.srcN + 20) 2 ∧
      t.hdr.channelCount.toNat = s.memRead (s.srcN + 22) 2 ∧ t.hdr.sampleRate.toNat = s.memRead (s.srcN + 24) 4 ∧
      t.hdr.byteRate.toNat = s.memRead (s.srcN + 28) 4 ∧ t.hdr.blockAlign.toNat = s.memRead (s.srcN + 32) 2 ∧
      t.hdr.bitsPerSample.toNat = s.memRead (s.srcN + 34) 2 ∧ t.hdr.dataId = 0x61746164#32 ∧
      t.hdr.dataSize.toNat = s.memRead (s.srcN + 40) 4 ∧ t = { s with hdr := t.hdr }

/-- R126: SCNT completes in every state: LEN takes data_size div 2, `ODD` is set when data_size is odd, and nothing else
changes. -/
def Obligations.ScntHalvesDataSize : Prop :=
  ∀ s : State,
    ∃ t, exec .scnt s = .next t ∧ t.lenN = s.hdr.dataSize.toNat / 2 ∧
      (t.flags.odd = true ↔ s.flags.odd = true ∨ s.hdr.dataSize.toNat % 2 = 1) ∧
      t = { s with len := t.len, flags := { s.flags with odd := t.flags.odd } }

/-! The commands: where they fault. -/

/-- R161: the first failing check of each command, in the table's order, decides the fault; where none fails the command
completes and leaves the latch as it was. A word that is none of the nine is an illegal command. -/
def Obligations.EveryFaultIsOfTheTable : Prop :=
  (∀ (i : Instr) (s : State),
    match firstFault (faultRows s i) with
    | some code => exec i s = .next { s with err := some ⟨code, (encode i).extractLsb' 0 8⟩ }
    | none => ∃ t, exec i s = .next t ∧ t.err = s.err) ∧
  ∀ (w : Word) (s : State), s.err = none → (w.extractLsb' 8 24 ≠ 0 ∨ 8 < (w.extractLsb' 0 8).toNat) →
    s.command w = .next { s with err := some ⟨.illegalCommand, w.extractLsb' 0 8⟩ }

/-- R165: a command run with no fault latched either completes, leaving the latch clear, or writes `ERR` and nothing
else, with the command's own opcode as `EOP`. -/
def Obligations.FaultWritesErrOnly : Prop :=
  ∀ (i : Instr) (s : State), s.err = none →
    ∃ t, exec i s = .next t ∧
      (t.err = none ∨ ∃ code, t = { s with err := some ⟨code, (encode i).extractLsb' 0 8⟩ })

/-! Whole-machine rules. -/

/-- R40: what each command can write. -/
def Obligations.CommandsWriteOnlyTheirColumns : Prop :=
  ∀ (i : Instr) (s t : State), exec i s = .next t →
    t.src = s.src ∧ t.dst = s.dst ∧ t.nch = s.nch ∧ t.ctrl = s.ctrl ∧ t.capf = s.capf ∧ t.capb = s.capb ∧
    t.epoch = s.epoch ∧ t.script = s.script ∧ t.returned = s.returned ∧
    (i ≠ .scnt → t.len = s.len) ∧
    (i ≠ .qnt → t.flags.sat = s.flags.sat ∧ t.flags.nanf = s.flags.nanf) ∧
    (i ≠ .scnt → t.flags.odd = s.flags.odd) ∧
    (i ≠ .sep → t.flags.rem = s.flags.rem) ∧
    (i ≠ .qnt → i ≠ .hpck → t.blen = s.blen ∧ ∀ j, t.readB j = s.readB j) ∧
    (i ≠ .hbld → i ≠ .hupk → t.hdr = s.hdr) ∧
    (i ≠ .dqt → i ≠ .mrg → i ≠ .sep → ∀ k, t.readF k = s.readF k)

/-- R24, R185: no command clears a flag. -/
def Obligations.CommandsNeverClearAFlag : Prop :=
  ∀ (i : Instr) (s t : State), exec i s = .next t →
    (s.flags.sat = true → t.flags.sat = true) ∧ (s.flags.nanf = true → t.flags.nanf = true) ∧
    (s.flags.odd = true → t.flags.odd = true) ∧ (s.flags.rem = true → t.flags.rem = true)

/-- R29, R186: no command lowers BLEN. -/
def Obligations.CommandsNeverLowerBlen : Prop :=
  ∀ (i : Instr) (s t : State), s.capacitiesOk → exec i s = .next t → s.blenN ≤ t.blenN

/-- R37: a command's effect is a function of the command word and the block's own state: the host's pending events and
the data returned so far neither steer it nor are changed by it. -/
def Obligations.CommandsIgnoreTheHostSide : Prop :=
  ∀ (i : Instr) (s t : State) (events : List HostEvent) (data : List Response), exec i s = .next t →
    exec i { s with script := events, returned := data } = .next { t with script := events, returned := data }

/-- R27, R166, R167: a latched fault stays as it is until the host writes `ERR` or asserts `rst`. -/
def Obligations.LatchHoldsUntilTheHostClearsIt : Prop :=
  ∀ (s t : State) (r : FaultRecord), s.err = some r → step s = .next t →
    t.err = some r ∨
    (∃ v rest, s.script = .write32 0x0000004#26 v :: rest ∧ t.err = none) ∨
    (∃ rest, s.script = .rst :: rest ∧ t.err = none)

/-- R33: the header registers change only in the step of a `CMD` write of HBLD or HUPK, or of `rst`. -/
def Obligations.HeaderChangesOnlyByBuildParseOrReset : Prop :=
  ∀ s t : State, step s = .next t → t.hdr ≠ s.hdr →
    (∃ rest, s.nextIsCommand 0x00000005#32 rest) ∨ (∃ rest, s.nextIsCommand 0x00000007#32 rest) ∨
    (∃ rest, s.script = .rst :: rest)

/-- R24, R144: a flag rises only in the step of a `CMD` write of the command that sets it, never by a host write. -/
def Obligations.FlagsRiseOnlyByTheirCommand : Prop :=
  ∀ s t : State, step s = .next t →
    (s.flags.sat = false → t.flags.sat = true → ∃ rest, s.nextIsCommand 0x00000001#32 rest) ∧
    (s.flags.nanf = false → t.flags.nanf = true → ∃ rest, s.nextIsCommand 0x00000001#32 rest) ∧
    (s.flags.odd = false → t.flags.odd = true → ∃ rest, s.nextIsCommand 0x00000008#32 rest) ∧
    (s.flags.rem = false → t.flags.rem = true → ∃ rest, s.nextIsCommand 0x00000004#32 rest)

/-- R38, R163: `irq` is 1 exactly while a fault is latched and `CTRL.EIE` is 1. -/
def Obligations.IrqIsTheEnabledLatch : Prop :=
  ∀ s : State, s.irq = true ↔ s.errCode ≠ 0 ∧ s.ctrl.eie = true

/-- Every step keeps the legal states: capacities in range (R6), BLEN ≤ NB (R29), canonical memories inside their
capacities (R35, R36), and header registers that hold zeros or a tagged header (R33, D41). -/
def Obligations.StepKeepsTheInvariant : Prop :=
  ∀ s t : State, s.Inv → step s = .next t → t.Inv

/-- The power-up reset state is legal. -/
def Obligations.ResetStateIsLegal : Prop := State.reset.Inv

/-! The codec's numbers. -/

/-- R93, R90 to R92: the integer quantizer is the rational pseudocode: exact product, one rounding, the clamp, `sat` on
the input, and the NaN and infinity cases. -/
def Obligations.QuantIsTheRationalPseudocode : Prop :=
  ∀ (w : Word) (rm : RoundMode), quant w rm = quantSpec w rm

/-- R90: rne_int gives the nearest integer, the even one at a tie, and is odd. -/
def Obligations.RneIntIsNearestTiesToEven : Prop :=
  ∀ p : ℚ, (∀ k : ℤ, |p - rneInt p| ≤ |p - k|) ∧
    (∀ k : ℤ, k ≠ rneInt p → |p - k| = |p - rneInt p| → rneInt p % 2 = 0) ∧ rneInt (-p) = -rneInt p

/-- R99 (a): the quantizer's code lies in [−32767, 32767], and its bytes are never those of −32768. -/
def Obligations.QuantCodeIsInRange : Prop :=
  ∀ (w : Word) (rm : RoundMode), -32767 ≤ (quant w rm).q ∧ (quant w rm).q ≤ 32767 ∧
    pack16 (quant w rm).q ≠ (0x00#8, 0x80#8)

/-- R99 (c): flipping the sign bit of a sample negates its code and keeps its flags. -/
def Obligations.QuantIsOdd : Prop :=
  ∀ (w : Word) (rm : RoundMode),
    quant (w ^^^ 0x80000000#32) rm = ⟨-(quant w rm).q, (quant w rm).sat, (quant w rm).nan⟩

/-- R99 (d): the quantizer is monotone on finite samples. -/
def Obligations.QuantIsMonotone : Prop :=
  ∀ (w w' : Word) (rm : RoundMode), isFinite w → isFinite w' → f32Val w ≤ f32Val w' →
    (quant w rm).q ≤ (quant w' rm).q

/-- R94: pack16 gives the low and the high byte of u16(q), unpack16 the signed value of the pair, and the two are
inverse in both directions. -/
def Obligations.PackAndUnpackAreInverse : Prop :=
  (∀ q : Int, -32768 ≤ q → q ≤ 32767 →
    ((pack16 q).1.toNat + 256 * (pack16 q).2.toNat : Int) = (if 0 ≤ q then q else q + 65536) ∧
      unpack16 (pack16 q).1 (pack16 q).2 = q) ∧
  (∀ b0 b1 : Byte,
    unpack16 b0 b1 = (if b0.toNat + 256 * b1.toNat < 32768 then (b0.toNat + 256 * b1.toNat : Int)
      else (b0.toNat + 256 * b1.toNat : Int) - 65536) ∧
      pack16 (unpack16 b0 b1) = (b0, b1))

/-- R96: the dequantizer is the exact quotient q / 32767 rounded once to binary32 by R95, −32768 no exception, with
its fixed points. -/
def Obligations.DequantIsTheRoundedQuotient : Prop :=
  (∀ q : Int, -32768 ≤ q → q ≤ 32767 → IsRoundF32 ((q : ℚ) / 32767) (dequant q)) ∧
  dequant 0 = 0x00000000#32 ∧ dequant 32767 = 0x3F800000#32 ∧ dequant (-32767) = 0xBF800000#32 ∧
  dequant (-32768) = 0xBF800100#32

/-- R101: the error of quantizing and dequantizing a finite sample of [−1, 1] is at most 1/65534 + 2^−25 under RNE and
below 1/32767 under RTZ. -/
def Obligations.RoundTripErrorIsBelowOneStep : Prop :=
  ∀ w : Word, isFinite w → |f32Val w| ≤ 1 →
    |f32Val (dequant (quant w .rne).q) - f32Val w| ≤ 1 / 65534 + 1 / 2 ^ 25 ∧
    |f32Val (dequant (quant w .rtz).q) - f32Val w| < 1 / 32767

/-- R101: under RNE, quantizing a dequantized code of [−32767, 32767] gives the code back. -/
def Obligations.DequantThenQuantRneIsIdentity : Prop :=
  ∀ q : Int, -32767 ≤ q → q ≤ 32767 → (quant (dequant q) .rne).q = q

/-- R100 (b): the dequantizer is strictly monotone. -/
def Obligations.DequantIsStrictlyMonotone : Prop :=
  ∀ q q' : Int, -32768 ≤ q → q < q' → q' ≤ 32767 → f32Val (dequant q) < f32Val (dequant q')

/-! Pairs of commands. -/

/-- R114: SEP of the result of MRG restores the planar block bit for bit and does not set `REM`; MRG of the result of
SEP restores the whole frames of the interleaved block. -/
def Obligations.SeparateAndMergeAreInverse : Prop :=
  (∀ (s t u : State) (back len : Word), len.toNat = s.nchN * s.lenN → s.err = none →
    exec .mrg s = .next t → t.err = none →
    exec .sep { t with src := s.dst, dst := back, len := len } = .next u → u.err = none →
    (∀ c < s.nchN, ∀ k < s.lenN,
      u.readF (back.toNat + c * s.lenN + k) = s.readF (s.srcN + c * s.lenN + k)) ∧
    u.flags.rem = s.flags.rem) ∧
  (∀ (s t u : State) (back len : Word), len.toNat = s.lenN / s.nchN → s.err = none →
    exec .sep s = .next t → t.err = none →
    exec .mrg { t with src := s.dst, dst := back, len := len } = .next u → u.err = none →
    ∀ j < s.nchN * (s.lenN / s.nchN), u.readF (back.toNat + j) = s.readF (s.srcN + j))

/-- R127: HUPK from where HPCK wrote a header with the four tags leaves every header register with the value it had;
HPCK after a completed HUPK reproduces the 44 bytes. -/
def Obligations.PackAndUnpackHeaderAreInverse : Prop :=
  (∀ s : State, s.capacitiesOk → s.hdr.tagsOk → s.dstN + 44 ≤ s.capb →
    ∃ t, exec .hpck s = .next t ∧ s.dstN + 44 ≤ t.blenN ∧
      ∀ h : Header, exec .hupk { t with src := s.dst, hdr := h } = .next { t with src := s.dst }) ∧
  ∀ (s t : State), s.err = none → exec .hupk s = .next t → t.err = none → s.dstN + 44 ≤ s.capb →
    ∃ u, exec .hpck t = .next u ∧ ∀ k < 44, u.readB (s.dstN + k) = s.readB (s.srcN + k)

/-! The file sequences: the host's WAVWRITE and WAVREAD, each a run of its fixed transactions. -/

/-- R151: the ten transactions of WAVWRITE, where no command of it can fault, leave the header image, the encoded
samples behind it and BLEN at their end; the final read of `ERR` returns 0. -/
def Obligations.WavWriteLeavesTheFile : Prop :=
  ∀ (s : State) (a n c : Word) (rest : List HostEvent), s.capacitiesOk → s.err = none →
    s.script = expandLines (wavWriteLines a n c) ++ rest →
    1 ≤ c.toNat → c.toNat < 2 ^ 16 → n.toNat ≤ 2147483629 → a.toNat + n.toNat ≤ s.capf →
    44 + 2 * n.toNat ≤ s.capb →
    ∃ t, Host.Core.run core 10 s = .next t ∧
      (∀ k < 44, (headerImage n.toNat c.toNat)[k]? = some (t.readB k)) ∧
      (∀ i < n.toNat,
        (t.readB (44 + 2 * i), t.readB (45 + 2 * i)) = pack16 (quant (s.readF (a.toNat + i)) s.ctrl.rmode).q) ∧
      (∀ j, 44 + 2 * n.toNat ≤ j → t.readB j = s.readB j) ∧
      t.blenN = 44 + 2 * n.toNat ∧
      t.srcN = a.toNat ∧ t.dstN = 44 ∧ t.lenN = n.toNat ∧ t.nchN = c.toNat ∧ t.hdr = buildHeader n.toNat t.nch ∧
      t = { s with
        src := a, dst := 44, len := n, nch := t.nch, blen := t.blen, hdr := t.hdr, bmem := t.bmem,
        flags := { s.flags with sat := t.flags.sat, nanf := t.flags.nanf },
        script := rest, returned := s.returned ++ [.word 0] }

/-- R154: the seven transactions of WAVREAD, where no command of it can fault, leave the parsed header, the sample count
and the decoded samples; BMEM and BLEN stay, and the final read of `ERR` returns 0. -/
def Obligations.WavReadReturnsTheSamples : Prop :=
  ∀ (s : State) (d : Word) (count : Nat) (rest : List HostEvent), s.err = none →
    s.script = expandLines (wavReadLines d) ++ rest →
    44 ≤ s.blenN → (s.parseHeader 0).tagsOk → count = s.memRead 40 4 / 2 → 44 + 2 * count ≤ s.blenN →
    d.toNat + count ≤ s.capf →
    ∃ t, Host.Core.run core 7 s = .next t ∧
      t.hdr = s.parseHeader 0 ∧ t.lenN = count ∧
      (∀ i < count, t.readF (d.toNat + i) = dequant (unpack16 (s.readB (44 + 2 * i)) (s.readB (45 + 2 * i)))) ∧
      (∀ k, (k < d.toNat ∨ d.toNat + count ≤ k) → t.readF k = s.readF k) ∧
      (t.flags.odd = true ↔ s.flags.odd = true ∨ s.memRead 40 4 % 2 = 1) ∧
      t = { s with
        src := 44, dst := d, len := t.len, hdr := t.hdr, fmem := t.fmem, flags := { s.flags with odd := t.flags.odd },
        script := rest, returned := s.returned ++ [.word 0] }
end

