-- ==== Sys2Proof/Laws/Memory.lean ====
section
/-! SUPPORT. The laws of memory cells: what a read after a write gives, and that a write keeps the canonical form and
adds no index but its own. -/

namespace Sys2Proof.Machine

variable {α : Type}

@[simp] theorem Memory.read_nil (free : Nat → α) (a : Nat) : Memory.read free [] a = free a := rfl

/-- A read after listing a value gives that value at its index and the old contents elsewhere. -/
theorem Memory.read_insert (free : Nat → α) (m : Memory α) (a b : Nat) (v : α) :
    Memory.read free (m.insert a v) b = if b = a then v else Memory.read free m b := by
  induction m with
  | nil => simp [Memory.insert, Memory.read]
  | cons c rest ih =>
    obtain ⟨k, x⟩ := c
    simp only [Memory.insert]
    split
    · simp [Memory.read]
    · split
      · next h => subst h; by_cases hb : b = a <;> simp [Memory.read, hb]
      · next h1 h2 =>
        simp only [Memory.read, ih]
        by_cases hk : b = k
        · have : b ≠ a := by omega
          simp [hk]
          omega
        · simp [hk]

/-- Unlisting an index frees it and leaves the others. -/
theorem Memory.read_filter (free : Nat → α) (m : Memory α) (a b : Nat) :
    Memory.read free (m.filter (fun c => c.1 != a)) b = if b = a then free b else Memory.read free m b := by
  induction m with
  | nil => simp [Memory.read]
  | cons c rest ih =>
    obtain ⟨k, x⟩ := c
    by_cases hk : k = a
    · subst hk
      simp only [List.filter_cons, bne_self_eq_false, Bool.false_eq_true, if_false, ih, Memory.read]
      by_cases hb : b = k <;> simp [hb]
    · have : (k != a) = true := by simpa using hk
      simp only [List.filter_cons, this, if_true, Memory.read, ih]
      by_cases hb : b = k
      · subst hb; simp [hk]
      · simp [hb]

/-- A read after a write gives the written value at its index and the old contents elsewhere. -/
theorem Memory.read_write [DecidableEq α] (free : Nat → α) (m : Memory α) (a b : Nat) (v : α) :
    Memory.read free (m.write free a v) b = if b = a then v else Memory.read free m b := by
  unfold Memory.write
  split
  · next h =>
    rw [Memory.read_filter]
    by_cases hb : b = a <;> simp [hb, h]
  · exact Memory.read_insert free m a b v

/-- A cell after listing a value is the new one or an old one. -/
theorem Memory.mem_insert {m : Memory α} {a : Nat} {v : α} {c : Nat × α} (h : c ∈ m.insert a v) :
    c = (a, v) ∨ c ∈ m := by
  induction m with
  | nil => simpa [Memory.insert] using h
  | cons d rest ih =>
    obtain ⟨k, x⟩ := d
    simp only [Memory.insert] at h
    split at h
    · simpa using h
    · split at h
      · rcases List.mem_cons.1 h with h | h
        · exact .inl h
        · exact .inr (List.mem_cons_of_mem _ h)
      · rcases List.mem_cons.1 h with h | h
        · exact .inr (h ▸ List.mem_cons_self)
        · exact (ih h).imp id (List.mem_cons_of_mem _)

/-- A cell after a write is the new one or an old one. -/
theorem Memory.mem_write [DecidableEq α] {free : Nat → α} {m : Memory α} {a : Nat} {v : α} {c : Nat × α}
    (h : c ∈ m.write free a v) : c = (a, v) ∨ c ∈ m := by
  unfold Memory.write at h
  split at h
  · exact .inr (List.mem_of_mem_filter h)
  · exact Memory.mem_insert h

/-- Listing a value keeps the indices strictly rising. -/
theorem Memory.pairwise_insert {m : Memory α} (h : m.Pairwise fun x y => x.1 < y.1) (a : Nat) (v : α) :
    (m.insert a v).Pairwise fun x y => x.1 < y.1 := by
  induction m with
  | nil => simp [Memory.insert]
  | cons d rest ih =>
    obtain ⟨k, x⟩ := d
    rw [List.pairwise_cons] at h
    simp only [Memory.insert]
    split
    · next hak =>
      refine List.pairwise_cons.2 ⟨fun y hy => ?_, List.pairwise_cons.2 h⟩
      rcases List.mem_cons.1 hy with hy | hy
      · simpa [hy] using hak
      · exact Nat.lt_trans hak (h.1 y hy)
    · split
      · next hak => exact List.pairwise_cons.2 ⟨fun y hy => hak ▸ h.1 y hy, h.2⟩
      · next h1 h2 =>
        refine List.pairwise_cons.2 ⟨fun y hy => ?_, ih h.2⟩
        rcases Memory.mem_insert hy with hy | hy
        · rw [hy]; show k < a; omega
        · exact h.1 y hy

/-- The empty memory is in canonical form. -/
theorem Memory.wf_nil (free : Nat → α) : Memory.wf free [] := by simp [Memory.wf]

/-- A write keeps the canonical form. -/
theorem Memory.wf_write [DecidableEq α] {free : Nat → α} {m : Memory α} (h : Memory.wf free m) (a : Nat) (v : α) :
    Memory.wf free (m.write free a v) := by
  unfold Memory.write
  split
  · exact ⟨h.1.filter _, fun c hc => h.2 c (List.mem_of_mem_filter hc)⟩
  · next hv =>
    refine ⟨Memory.pairwise_insert h.1 a v, fun c hc => ?_⟩
    rcases Memory.mem_insert hc with hc | hc
    · rw [hc]; exact hv
    · exact h.2 c hc

/-- A write at an index below a bound keeps every listed index below it. -/
theorem Memory.bounded_write [DecidableEq α] {free : Nat → α} {m : Memory α} {n : Nat}
    (h : ∀ c ∈ m, c.1 < n) {a : Nat} (ha : a < n) (v : α) : ∀ c ∈ m.write free a v, c.1 < n := by
  intro c hc
  rcases Memory.mem_write hc with hc | hc
  · rw [hc]; exact ha
  · exact h c hc

/-- Two memories in canonical form that read alike everywhere are the same list. -/
theorem Memory.ext_of_wf {free : Nat → α} {m m' : Memory α} (h : Memory.wf free m) (h' : Memory.wf free m')
    (hr : ∀ a, Memory.read free m a = Memory.read free m' a) : m = m' := by
  have head_le : ∀ {k : Nat} {x : α} {r : Memory α}, Memory.wf free ((k, x) :: r) →
      ∀ {b : Nat}, b < k → Memory.read free ((k, x) :: r) b = free b := by
    intro k x r hw b hb
    have : ∀ {r : Memory α}, (∀ c ∈ r, b < c.1) → Memory.read free r b = free b := by
      intro r hr
      induction r with
      | nil => rfl
      | cons d r ih =>
        obtain ⟨k', x'⟩ := d
        have h1 : b < k' := hr (k', x') List.mem_cons_self
        have h2 := ih fun c hc => hr c (List.mem_cons_of_mem _ hc)
        simp [Memory.read, h2, Nat.ne_of_lt h1]
    apply this
    intro c hc
    rcases List.mem_cons.1 hc with hc | hc
    · rw [hc]; exact hb
    · exact Nat.lt_trans hb ((List.pairwise_cons.1 hw.1).1 c hc)
  induction m generalizing m' with
  | nil =>
    cases m' with
    | nil => rfl
    | cons d r =>
      obtain ⟨k, x⟩ := d
      have := hr k
      simp only [Memory.read, if_true] at this
      exact absurd this.symm (h'.2 (k, x) List.mem_cons_self)
  | cons d r ih =>
    obtain ⟨k, x⟩ := d
    cases m' with
    | nil =>
      have := hr k
      simp only [Memory.read, if_true] at this
      exact absurd this (h.2 (k, x) List.mem_cons_self)
    | cons d' r' =>
      obtain ⟨k', x'⟩ := d'
      have hkk : k = k' := by
        rcases Nat.lt_trichotomy k k' with hlt | heq | hgt
        · have := hr k
          rw [head_le h' hlt] at this
          simp only [Memory.read, if_true] at this
          exact absurd this (h.2 (k, x) List.mem_cons_self)
        · exact heq
        · have := hr k'
          rw [head_le h hgt] at this
          simp only [Memory.read, if_true] at this
          exact absurd this.symm (h'.2 (k', x') List.mem_cons_self)
      subst hkk
      have hxx : x = x' := by simpa [Memory.read] using hr k
      subst hxx
      have tail : ∀ {r : Memory α}, Memory.wf free ((k, x) :: r) → Memory.wf free r := fun hw =>
        ⟨(List.pairwise_cons.1 hw.1).2, fun c hc => hw.2 c (List.mem_cons_of_mem _ hc)⟩
      have tail_free : ∀ {r : Memory α}, Memory.wf free ((k, x) :: r) → Memory.read free r k = free k := by
        intro r hw
        cases r with
        | nil => rfl
        | cons e r2 =>
          obtain ⟨k2, x2⟩ := e
          have hlt : k < k2 := (List.pairwise_cons.1 hw.1).1 (k2, x2) List.mem_cons_self
          exact head_le (tail hw) hlt
      congr 1
      refine ih (tail h) (tail h') fun a => ?_
      by_cases ha : a = k
      · rw [ha, tail_free h, tail_free h']
      · simpa [Memory.read, ha] using hr a

end Sys2Proof.Machine
end

