-- ==== Sys2Proof/Laws/State.lean ====
section
/-! SUPPORT. One lemma per field per update of State: what an update leaves as it was, and what it sets. -/

namespace Sys2Proof.Machine

@[simp] theorem State.writeF_src (s : State) (i : Nat) (w : Word) : (s.writeF i w).src = s.src := rfl
@[simp] theorem State.writeF_dst (s : State) (i : Nat) (w : Word) : (s.writeF i w).dst = s.dst := rfl
@[simp] theorem State.writeF_len (s : State) (i : Nat) (w : Word) : (s.writeF i w).len = s.len := rfl
@[simp] theorem State.writeF_nch (s : State) (i : Nat) (w : Word) : (s.writeF i w).nch = s.nch := rfl
@[simp] theorem State.writeF_flags (s : State) (i : Nat) (w : Word) : (s.writeF i w).flags = s.flags := rfl
@[simp] theorem State.writeF_err (s : State) (i : Nat) (w : Word) : (s.writeF i w).err = s.err := rfl
@[simp] theorem State.writeF_ctrl (s : State) (i : Nat) (w : Word) : (s.writeF i w).ctrl = s.ctrl := rfl
@[simp] theorem State.writeF_blen (s : State) (i : Nat) (w : Word) : (s.writeF i w).blen = s.blen := rfl
@[simp] theorem State.writeF_hdr (s : State) (i : Nat) (w : Word) : (s.writeF i w).hdr = s.hdr := rfl
@[simp] theorem State.writeF_capf (s : State) (i : Nat) (w : Word) : (s.writeF i w).capf = s.capf := rfl
@[simp] theorem State.writeF_capb (s : State) (i : Nat) (w : Word) : (s.writeF i w).capb = s.capb := rfl
@[simp] theorem State.writeF_bmem (s : State) (i : Nat) (w : Word) : (s.writeF i w).bmem = s.bmem := rfl
@[simp] theorem State.writeF_epoch (s : State) (i : Nat) (w : Word) : (s.writeF i w).epoch = s.epoch := rfl
@[simp] theorem State.writeF_script (s : State) (i : Nat) (w : Word) : (s.writeF i w).script = s.script := rfl
@[simp] theorem State.writeF_returned (s : State) (i : Nat) (w : Word) : (s.writeF i w).returned = s.returned := rfl

@[simp] theorem State.writeB_src (s : State) (j : Nat) (b : Byte) : (s.writeB j b).src = s.src := rfl
@[simp] theorem State.writeB_dst (s : State) (j : Nat) (b : Byte) : (s.writeB j b).dst = s.dst := rfl
@[simp] theorem State.writeB_len (s : State) (j : Nat) (b : Byte) : (s.writeB j b).len = s.len := rfl
@[simp] theorem State.writeB_nch (s : State) (j : Nat) (b : Byte) : (s.writeB j b).nch = s.nch := rfl
@[simp] theorem State.writeB_flags (s : State) (j : Nat) (b : Byte) : (s.writeB j b).flags = s.flags := rfl
@[simp] theorem State.writeB_err (s : State) (j : Nat) (b : Byte) : (s.writeB j b).err = s.err := rfl
@[simp] theorem State.writeB_ctrl (s : State) (j : Nat) (b : Byte) : (s.writeB j b).ctrl = s.ctrl := rfl
@[simp] theorem State.writeB_blen (s : State) (j : Nat) (b : Byte) : (s.writeB j b).blen = s.blen := rfl
@[simp] theorem State.writeB_hdr (s : State) (j : Nat) (b : Byte) : (s.writeB j b).hdr = s.hdr := rfl
@[simp] theorem State.writeB_capf (s : State) (j : Nat) (b : Byte) : (s.writeB j b).capf = s.capf := rfl
@[simp] theorem State.writeB_capb (s : State) (j : Nat) (b : Byte) : (s.writeB j b).capb = s.capb := rfl
@[simp] theorem State.writeB_fmem (s : State) (j : Nat) (b : Byte) : (s.writeB j b).fmem = s.fmem := rfl
@[simp] theorem State.writeB_epoch (s : State) (j : Nat) (b : Byte) : (s.writeB j b).epoch = s.epoch := rfl
@[simp] theorem State.writeB_script (s : State) (j : Nat) (b : Byte) : (s.writeB j b).script = s.script := rfl
@[simp] theorem State.writeB_returned (s : State) (j : Nat) (b : Byte) : (s.writeB j b).returned = s.returned := rfl

@[simp] theorem State.raise_src (s : State) (c : ErrCode) (e : Byte) : (s.raise c e).src = s.src := rfl
@[simp] theorem State.raise_dst (s : State) (c : ErrCode) (e : Byte) : (s.raise c e).dst = s.dst := rfl
@[simp] theorem State.raise_len (s : State) (c : ErrCode) (e : Byte) : (s.raise c e).len = s.len := rfl
@[simp] theorem State.raise_nch (s : State) (c : ErrCode) (e : Byte) : (s.raise c e).nch = s.nch := rfl
@[simp] theorem State.raise_flags (s : State) (c : ErrCode) (e : Byte) : (s.raise c e).flags = s.flags := rfl
@[simp] theorem State.raise_err (s : State) (c : ErrCode) (e : Byte) : (s.raise c e).err = some ⟨c, e⟩ := rfl
@[simp] theorem State.raise_ctrl (s : State) (c : ErrCode) (e : Byte) : (s.raise c e).ctrl = s.ctrl := rfl
@[simp] theorem State.raise_blen (s : State) (c : ErrCode) (e : Byte) : (s.raise c e).blen = s.blen := rfl
@[simp] theorem State.raise_hdr (s : State) (c : ErrCode) (e : Byte) : (s.raise c e).hdr = s.hdr := rfl
@[simp] theorem State.raise_capf (s : State) (c : ErrCode) (e : Byte) : (s.raise c e).capf = s.capf := rfl
@[simp] theorem State.raise_capb (s : State) (c : ErrCode) (e : Byte) : (s.raise c e).capb = s.capb := rfl
@[simp] theorem State.raise_fmem (s : State) (c : ErrCode) (e : Byte) : (s.raise c e).fmem = s.fmem := rfl
@[simp] theorem State.raise_bmem (s : State) (c : ErrCode) (e : Byte) : (s.raise c e).bmem = s.bmem := rfl
@[simp] theorem State.raise_epoch (s : State) (c : ErrCode) (e : Byte) : (s.raise c e).epoch = s.epoch := rfl
@[simp] theorem State.raise_script (s : State) (c : ErrCode) (e : Byte) : (s.raise c e).script = s.script := rfl
@[simp] theorem State.raise_returned (s : State) (c : ErrCode) (e : Byte) : (s.raise c e).returned = s.returned := rfl

@[simp] theorem State.clearErr_src (s : State) : (s.clearErr).src = s.src := rfl
@[simp] theorem State.clearErr_dst (s : State) : (s.clearErr).dst = s.dst := rfl
@[simp] theorem State.clearErr_len (s : State) : (s.clearErr).len = s.len := rfl
@[simp] theorem State.clearErr_nch (s : State) : (s.clearErr).nch = s.nch := rfl
@[simp] theorem State.clearErr_flags (s : State) : (s.clearErr).flags = s.flags := rfl
@[simp] theorem State.clearErr_err (s : State) : (s.clearErr).err = none := rfl
@[simp] theorem State.clearErr_ctrl (s : State) : (s.clearErr).ctrl = s.ctrl := rfl
@[simp] theorem State.clearErr_blen (s : State) : (s.clearErr).blen = s.blen := rfl
@[simp] theorem State.clearErr_hdr (s : State) : (s.clearErr).hdr = s.hdr := rfl
@[simp] theorem State.clearErr_capf (s : State) : (s.clearErr).capf = s.capf := rfl
@[simp] theorem State.clearErr_capb (s : State) : (s.clearErr).capb = s.capb := rfl
@[simp] theorem State.clearErr_fmem (s : State) : (s.clearErr).fmem = s.fmem := rfl
@[simp] theorem State.clearErr_bmem (s : State) : (s.clearErr).bmem = s.bmem := rfl
@[simp] theorem State.clearErr_epoch (s : State) : (s.clearErr).epoch = s.epoch := rfl
@[simp] theorem State.clearErr_script (s : State) : (s.clearErr).script = s.script := rfl
@[simp] theorem State.clearErr_returned (s : State) : (s.clearErr).returned = s.returned := rfl

@[simp] theorem State.rst_src (s : State) : (s.rst).src = 0 := rfl
@[simp] theorem State.rst_dst (s : State) : (s.rst).dst = 0 := rfl
@[simp] theorem State.rst_len (s : State) : (s.rst).len = 0 := rfl
@[simp] theorem State.rst_nch (s : State) : (s.rst).nch = 0 := rfl
@[simp] theorem State.rst_flags (s : State) : (s.rst).flags = ⟨false, false, false, false⟩ := rfl
@[simp] theorem State.rst_err (s : State) : (s.rst).err = none := rfl
@[simp] theorem State.rst_ctrl (s : State) : (s.rst).ctrl = ⟨.rne, false⟩ := rfl
@[simp] theorem State.rst_blen (s : State) : (s.rst).blen = 0 := rfl
@[simp] theorem State.rst_hdr (s : State) : (s.rst).hdr = Header.zero := rfl
@[simp] theorem State.rst_capf (s : State) : (s.rst).capf = s.capf := rfl
@[simp] theorem State.rst_capb (s : State) : (s.rst).capb = s.capb := rfl
@[simp] theorem State.rst_fmem (s : State) : (s.rst).fmem = [] := rfl
@[simp] theorem State.rst_bmem (s : State) : (s.rst).bmem = [] := rfl
@[simp] theorem State.rst_epoch (s : State) : (s.rst).epoch = s.epoch + 1 := rfl
@[simp] theorem State.rst_script (s : State) : (s.rst).script = s.script := rfl
@[simp] theorem State.rst_returned (s : State) : (s.rst).returned = s.returned := rfl

@[simp] theorem State.writeBlen_src (s : State) (v : Word) : (s.writeBlen v).src = s.src := rfl
@[simp] theorem State.writeBlen_dst (s : State) (v : Word) : (s.writeBlen v).dst = s.dst := rfl
@[simp] theorem State.writeBlen_len (s : State) (v : Word) : (s.writeBlen v).len = s.len := rfl
@[simp] theorem State.writeBlen_nch (s : State) (v : Word) : (s.writeBlen v).nch = s.nch := rfl
@[simp] theorem State.writeBlen_flags (s : State) (v : Word) : (s.writeBlen v).flags = s.flags := rfl
@[simp] theorem State.writeBlen_err (s : State) (v : Word) : (s.writeBlen v).err = s.err := rfl
@[simp] theorem State.writeBlen_ctrl (s : State) (v : Word) : (s.writeBlen v).ctrl = s.ctrl := rfl
@[simp] theorem State.writeBlen_blen (s : State) (v : Word) : (s.writeBlen v).blen = BitVec.ofNat 32 (min v.toNat s.capb) := rfl
@[simp] theorem State.writeBlen_hdr (s : State) (v : Word) : (s.writeBlen v).hdr = s.hdr := rfl
@[simp] theorem State.writeBlen_capf (s : State) (v : Word) : (s.writeBlen v).capf = s.capf := rfl
@[simp] theorem State.writeBlen_capb (s : State) (v : Word) : (s.writeBlen v).capb = s.capb := rfl
@[simp] theorem State.writeBlen_fmem (s : State) (v : Word) : (s.writeBlen v).fmem = s.fmem := rfl
@[simp] theorem State.writeBlen_bmem (s : State) (v : Word) : (s.writeBlen v).bmem = s.bmem := rfl
@[simp] theorem State.writeBlen_epoch (s : State) (v : Word) : (s.writeBlen v).epoch = s.epoch := rfl
@[simp] theorem State.writeBlen_script (s : State) (v : Word) : (s.writeBlen v).script = s.script := rfl
@[simp] theorem State.writeBlen_returned (s : State) (v : Word) : (s.writeBlen v).returned = s.returned := rfl

@[simp] theorem State.writeCtrl_src (s : State) (v : Word) : (s.writeCtrl v).src = s.src := rfl
@[simp] theorem State.writeCtrl_dst (s : State) (v : Word) : (s.writeCtrl v).dst = s.dst := rfl
@[simp] theorem State.writeCtrl_len (s : State) (v : Word) : (s.writeCtrl v).len = s.len := rfl
@[simp] theorem State.writeCtrl_nch (s : State) (v : Word) : (s.writeCtrl v).nch = s.nch := rfl
@[simp] theorem State.writeCtrl_flags (s : State) (v : Word) : (s.writeCtrl v).flags = s.flags := rfl
@[simp] theorem State.writeCtrl_err (s : State) (v : Word) : (s.writeCtrl v).err = s.err := rfl
@[simp] theorem State.writeCtrl_ctrl (s : State) (v : Word) : (s.writeCtrl v).ctrl = ⟨if v.getLsbD 0 then .rtz else .rne, v.getLsbD 1⟩ := rfl
@[simp] theorem State.writeCtrl_blen (s : State) (v : Word) : (s.writeCtrl v).blen = s.blen := rfl
@[simp] theorem State.writeCtrl_hdr (s : State) (v : Word) : (s.writeCtrl v).hdr = s.hdr := rfl
@[simp] theorem State.writeCtrl_capf (s : State) (v : Word) : (s.writeCtrl v).capf = s.capf := rfl
@[simp] theorem State.writeCtrl_capb (s : State) (v : Word) : (s.writeCtrl v).capb = s.capb := rfl
@[simp] theorem State.writeCtrl_fmem (s : State) (v : Word) : (s.writeCtrl v).fmem = s.fmem := rfl
@[simp] theorem State.writeCtrl_bmem (s : State) (v : Word) : (s.writeCtrl v).bmem = s.bmem := rfl
@[simp] theorem State.writeCtrl_epoch (s : State) (v : Word) : (s.writeCtrl v).epoch = s.epoch := rfl
@[simp] theorem State.writeCtrl_script (s : State) (v : Word) : (s.writeCtrl v).script = s.script := rfl
@[simp] theorem State.writeCtrl_returned (s : State) (v : Word) : (s.writeCtrl v).returned = s.returned := rfl

/-- A block write changes `fmem` only. -/
theorem State.writeWords_eq (s : State) (a : Nat) (xs : List Word) :
    s.writeWords a xs = { s with fmem := (s.writeWords a xs).fmem } := by
  induction xs generalizing s a with
  | nil => rfl
  | cons x xs ih => exact (ih (s.writeF a x) (a + 1)).trans rfl

@[simp] theorem State.writeWords_src (s : State) (a : Nat) (xs : List Word) : (s.writeWords a xs).src = s.src := by
  rw [s.writeWords_eq]
@[simp] theorem State.writeWords_dst (s : State) (a : Nat) (xs : List Word) : (s.writeWords a xs).dst = s.dst := by
  rw [s.writeWords_eq]
@[simp] theorem State.writeWords_len (s : State) (a : Nat) (xs : List Word) : (s.writeWords a xs).len = s.len := by
  rw [s.writeWords_eq]
@[simp] theorem State.writeWords_nch (s : State) (a : Nat) (xs : List Word) : (s.writeWords a xs).nch = s.nch := by
  rw [s.writeWords_eq]
@[simp] theorem State.writeWords_flags (s : State) (a : Nat) (xs : List Word) : (s.writeWords a xs).flags = s.flags := by
  rw [s.writeWords_eq]
@[simp] theorem State.writeWords_err (s : State) (a : Nat) (xs : List Word) : (s.writeWords a xs).err = s.err := by
  rw [s.writeWords_eq]
@[simp] theorem State.writeWords_ctrl (s : State) (a : Nat) (xs : List Word) : (s.writeWords a xs).ctrl = s.ctrl := by
  rw [s.writeWords_eq]
@[simp] theorem State.writeWords_blen (s : State) (a : Nat) (xs : List Word) : (s.writeWords a xs).blen = s.blen := by
  rw [s.writeWords_eq]
@[simp] theorem State.writeWords_hdr (s : State) (a : Nat) (xs : List Word) : (s.writeWords a xs).hdr = s.hdr := by
  rw [s.writeWords_eq]
@[simp] theorem State.writeWords_capf (s : State) (a : Nat) (xs : List Word) : (s.writeWords a xs).capf = s.capf := by
  rw [s.writeWords_eq]
@[simp] theorem State.writeWords_capb (s : State) (a : Nat) (xs : List Word) : (s.writeWords a xs).capb = s.capb := by
  rw [s.writeWords_eq]
@[simp] theorem State.writeWords_bmem (s : State) (a : Nat) (xs : List Word) : (s.writeWords a xs).bmem = s.bmem := by
  rw [s.writeWords_eq]
@[simp] theorem State.writeWords_epoch (s : State) (a : Nat) (xs : List Word) : (s.writeWords a xs).epoch = s.epoch := by
  rw [s.writeWords_eq]
@[simp] theorem State.writeWords_script (s : State) (a : Nat) (xs : List Word) : (s.writeWords a xs).script = s.script := by
  rw [s.writeWords_eq]
@[simp] theorem State.writeWords_returned (s : State) (a : Nat) (xs : List Word) : (s.writeWords a xs).returned = s.returned := by
  rw [s.writeWords_eq]

/-- A block write changes `bmem` only. -/
theorem State.writeBytes_eq (s : State) (a : Nat) (xs : List Byte) :
    s.writeBytes a xs = { s with bmem := (s.writeBytes a xs).bmem } := by
  induction xs generalizing s a with
  | nil => rfl
  | cons x xs ih => exact (ih (s.writeB a x) (a + 1)).trans rfl

@[simp] theorem State.writeBytes_src (s : State) (a : Nat) (xs : List Byte) : (s.writeBytes a xs).src = s.src := by
  rw [s.writeBytes_eq]
@[simp] theorem State.writeBytes_dst (s : State) (a : Nat) (xs : List Byte) : (s.writeBytes a xs).dst = s.dst := by
  rw [s.writeBytes_eq]
@[simp] theorem State.writeBytes_len (s : State) (a : Nat) (xs : List Byte) : (s.writeBytes a xs).len = s.len := by
  rw [s.writeBytes_eq]
@[simp] theorem State.writeBytes_nch (s : State) (a : Nat) (xs : List Byte) : (s.writeBytes a xs).nch = s.nch := by
  rw [s.writeBytes_eq]
@[simp] theorem State.writeBytes_flags (s : State) (a : Nat) (xs : List Byte) : (s.writeBytes a xs).flags = s.flags := by
  rw [s.writeBytes_eq]
@[simp] theorem State.writeBytes_err (s : State) (a : Nat) (xs : List Byte) : (s.writeBytes a xs).err = s.err := by
  rw [s.writeBytes_eq]
@[simp] theorem State.writeBytes_ctrl (s : State) (a : Nat) (xs : List Byte) : (s.writeBytes a xs).ctrl = s.ctrl := by
  rw [s.writeBytes_eq]
@[simp] theorem State.writeBytes_blen (s : State) (a : Nat) (xs : List Byte) : (s.writeBytes a xs).blen = s.blen := by
  rw [s.writeBytes_eq]
@[simp] theorem State.writeBytes_hdr (s : State) (a : Nat) (xs : List Byte) : (s.writeBytes a xs).hdr = s.hdr := by
  rw [s.writeBytes_eq]
@[simp] theorem State.writeBytes_capf (s : State) (a : Nat) (xs : List Byte) : (s.writeBytes a xs).capf = s.capf := by
  rw [s.writeBytes_eq]
@[simp] theorem State.writeBytes_capb (s : State) (a : Nat) (xs : List Byte) : (s.writeBytes a xs).capb = s.capb := by
  rw [s.writeBytes_eq]
@[simp] theorem State.writeBytes_fmem (s : State) (a : Nat) (xs : List Byte) : (s.writeBytes a xs).fmem = s.fmem := by
  rw [s.writeBytes_eq]
@[simp] theorem State.writeBytes_epoch (s : State) (a : Nat) (xs : List Byte) : (s.writeBytes a xs).epoch = s.epoch := by
  rw [s.writeBytes_eq]
@[simp] theorem State.writeBytes_script (s : State) (a : Nat) (xs : List Byte) : (s.writeBytes a xs).script = s.script := by
  rw [s.writeBytes_eq]
@[simp] theorem State.writeBytes_returned (s : State) (a : Nat) (xs : List Byte) : (s.writeBytes a xs).returned = s.returned := by
  rw [s.writeBytes_eq]

end Sys2Proof.Machine
end

