-- ==== Sys2Proof/Laws/Ops.lean ====
section
/-! SUPPORT. The laws of the shared operations: what FMEM and BMEM read as after each write, little-endian numbers, and
that every memory operation keeps the canonical form. -/

namespace Sys2Proof.Machine

/-! One cell. -/

@[simp] theorem State.readF_writeF (s : State) (a i : Nat) (w : Word) :
    (s.writeF a w).readF i = if i = a then w else s.readF i := Memory.read_write _ _ _ _ _

@[simp] theorem State.readB_writeB (s : State) (a j : Nat) (b : Byte) :
    (s.writeB a b).readB j = if j = a then b else s.readB j := Memory.read_write _ _ _ _ _

/-- FMEM reads alike in states that agree on FMEM and the reset count. -/
theorem State.readF_congr {s t : State} (hm : t.fmem = s.fmem) (he : t.epoch = s.epoch) (i : Nat) :
    t.readF i = s.readF i := by unfold State.readF; rw [hm, he]

/-- BMEM reads alike in states that agree on BMEM and the reset count. -/
theorem State.readB_congr {s t : State} (hm : t.bmem = s.bmem) (he : t.epoch = s.epoch) (j : Nat) :
    t.readB j = s.readB j := by unfold State.readB; rw [hm, he]

/-! Blocks. -/

/-- After a block write to FMEM, index i holds the block's word if it lies in the block, else what it held. -/
theorem State.readF_writeWords (s : State) (a : Nat) (ws : List Word) (i : Nat) :
    (s.writeWords a ws).readF i = if a ≤ i then ws[i - a]?.getD (s.readF i) else s.readF i := by
  induction ws generalizing s a with
  | nil => simp [State.writeWords]
  | cons w ws ih =>
    rw [State.writeWords, ih, State.readF_writeF]
    rcases Nat.lt_trichotomy i a with h | h | h
    · simp [Nat.not_le.2 h, Nat.not_le.2 (Nat.lt_succ_of_lt h), Nat.ne_of_lt h]
    · simp [h]
    · have h1 : i - a = (i - (a + 1)) + 1 := by omega
      have h2 : a + 1 ≤ i := h
      have h3 : a ≤ i := by omega
      have h4 : i ≠ a := by omega
      simp only [h2, h3, h4, if_true, if_false]
      rw [h1, List.getElem?_cons_succ]

/-- After a block write to BMEM, index j holds the block's byte if it lies in the block, else what it held. -/
theorem State.readB_writeBytes (s : State) (a : Nat) (bs : List Byte) (j : Nat) :
    (s.writeBytes a bs).readB j = if a ≤ j then bs[j - a]?.getD (s.readB j) else s.readB j := by
  induction bs generalizing s a with
  | nil => simp [State.writeBytes]
  | cons b bs ih =>
    rw [State.writeBytes, ih, State.readB_writeB]
    rcases Nat.lt_trichotomy j a with h | h | h
    · simp [Nat.not_le.2 h, Nat.not_le.2 (Nat.lt_succ_of_lt h), Nat.ne_of_lt h]
    · simp [h]
    · have h1 : j - a = (j - (a + 1)) + 1 := by omega
      have h2 : a + 1 ≤ j := h
      have h3 : a ≤ j := by omega
      have h4 : j ≠ a := by omega
      simp only [h2, h3, h4, if_true, if_false]
      rw [h1, List.getElem?_cons_succ]

/-- Inside the block, FMEM holds the block's word. -/
theorem State.readF_writeWords_at (s : State) (a : Nat) (ws : List Word) {k : Nat} (hk : k < ws.length) :
    (s.writeWords a ws).readF (a + k) = ws[k] := by
  rw [State.readF_writeWords]; simp [hk]

/-- Outside the block, FMEM holds what it held. -/
theorem State.readF_writeWords_outside (s : State) (a : Nat) (ws : List Word) {i : Nat}
    (h : i < a ∨ a + ws.length ≤ i) : (s.writeWords a ws).readF i = s.readF i := by
  rw [State.readF_writeWords]
  split
  · rw [List.getElem?_eq_none (by omega)]; rfl
  · rfl

/-- Inside the block, BMEM holds the block's byte. -/
theorem State.readB_writeBytes_at (s : State) (a : Nat) (bs : List Byte) {k : Nat} (hk : k < bs.length) :
    (s.writeBytes a bs).readB (a + k) = bs[k] := by
  rw [State.readB_writeBytes]; simp [hk]

/-- Outside the block, BMEM holds what it held. -/
theorem State.readB_writeBytes_outside (s : State) (a : Nat) (bs : List Byte) {j : Nat}
    (h : j < a ∨ a + bs.length ≤ j) : (s.writeBytes a bs).readB j = s.readB j := by
  rw [State.readB_writeBytes]
  split
  · rw [List.getElem?_eq_none (by omega)]; rfl
  · rfl

/-! The canonical form. -/

/-- A block write to FMEM inside a bound keeps the canonical form and the bound. -/
theorem State.fmem_writeWords_wf (s : State) (a n : Nat) (ws : List Word)
    (h : Memory.wf (Config.fmemFree s.epoch) s.fmem ∧ ∀ c ∈ s.fmem, c.1 < n) (hn : a + ws.length ≤ n) :
    Memory.wf (Config.fmemFree s.epoch) (s.writeWords a ws).fmem ∧ ∀ c ∈ (s.writeWords a ws).fmem, c.1 < n := by
  induction ws generalizing s a with
  | nil => exact h
  | cons w ws ih =>
    rw [List.length_cons] at hn
    exact ih (s.writeF a w) (a + 1) ⟨Memory.wf_write h.1 a w, Memory.bounded_write h.2 (by omega) w⟩ (by omega)

/-- A block write to BMEM inside a bound keeps the canonical form and the bound. -/
theorem State.bmem_writeBytes_wf (s : State) (a n : Nat) (bs : List Byte)
    (h : Memory.wf (Config.bmemFree s.epoch) s.bmem ∧ ∀ c ∈ s.bmem, c.1 < n) (hn : a + bs.length ≤ n) :
    Memory.wf (Config.bmemFree s.epoch) (s.writeBytes a bs).bmem ∧ ∀ c ∈ (s.writeBytes a bs).bmem, c.1 < n := by
  induction bs generalizing s a with
  | nil => exact h
  | cons b bs ih =>
    rw [List.length_cons] at hn
    exact ih (s.writeB a b) (a + 1) ⟨Memory.wf_write h.1 a b, Memory.bounded_write h.2 (by omega) b⟩ (by omega)

/-- Reset memory is in canonical form. -/
theorem State.reset_memory_wf :
    Memory.wf (Config.fmemFree State.reset.epoch) State.reset.fmem ∧
      Memory.wf (Config.bmemFree State.reset.epoch) State.reset.bmem := ⟨Memory.wf_nil _, Memory.wf_nil _⟩

/-! Little-endian numbers. -/

@[simp] theorem length_leBytes (n v : Nat) : (leBytes n v).length = n := by
  induction n generalizing v with
  | zero => rfl
  | succ n ih => simp [leBytes, ih]

/-- Byte k of `MemWrite`'s value is (v div 256^k) mod 256. -/
theorem getElem_leBytes (n v k : Nat) (h : k < (leBytes n v).length) :
    (leBytes n v)[k] = BitVec.ofNat 8 (v / 256 ^ k) := by
  induction n generalizing v k with
  | zero => simp at h
  | succ n ih =>
    cases k with
    | zero => simp [leBytes]
    | succ k =>
      simp only [leBytes, List.getElem_cons_succ]
      rw [ih (v / 256) k (by simpa using h), Nat.div_div_eq_div_mul, Nat.pow_succ, Nat.mul_comm]

/-- `MemRead` depends only on the bytes it reads. -/
theorem State.memRead_congr {s t : State} {a b n : Nat} (h : ∀ k < n, t.readB (b + k) = s.readB (a + k)) :
    t.memRead b n = s.memRead a n := by
  induction n generalizing a b with
  | zero => rfl
  | succ n ih =>
    have h0 : t.readB b = s.readB a := h 0 (Nat.zero_lt_succ n)
    rw [State.memRead, State.memRead, h0, ih]
    intro k hk
    have := h (k + 1) (by omega)
    rwa [show b + (k + 1) = b + 1 + k by omega, show a + (k + 1) = a + 1 + k by omega] at this

/-- `MemRead` of n bytes is below 256^n. -/
theorem State.memRead_lt (s : State) (a n : Nat) : s.memRead a n < 256 ^ n := by
  induction n generalizing a with
  | zero => simp [State.memRead]
  | succ n ih =>
    have h1 := ih (a + 1)
    have h2 := (s.readB a).isLt
    rw [State.memRead, Nat.pow_succ]
    omega

/-- `MemRead` where the bytes of a value lie gives the value, cut to n bytes. -/
theorem State.memRead_of_leBytes {s : State} {a n v : Nat}
    (h : ∀ k < n, s.readB (a + k) = BitVec.ofNat 8 (v / 256 ^ k)) : s.memRead a n = v % 256 ^ n := by
  induction n generalizing a v with
  | zero => simp [State.memRead, Nat.mod_one]
  | succ n ih =>
    have h0 : s.readB a = BitVec.ofNat 8 v := by simpa using h 0 (Nat.zero_lt_succ n)
    have h1 : s.memRead (a + 1) n = v / 256 % 256 ^ n := by
      refine ih fun k hk => ?_
      have := h (k + 1) (by omega)
      rwa [show a + (k + 1) = a + 1 + k by omega, Nat.pow_succ, Nat.mul_comm, ← Nat.div_div_eq_div_mul] at this
    have h2 : (BitVec.ofNat 8 v).toNat = v % 256 := BitVec.toNat_ofNat v 8
    rw [State.memRead, h0, h1, h2, Nat.pow_succ', Nat.mod_mul]

/-! Raising a fault and returning from it. -/

/-- Clearing the latch undoes raising a fault in a state without one: entry saves and changes nothing else (R165,
R167). -/
theorem State.clearErr_raise (s : State) (h : s.err = none) (c : ErrCode) (e : Byte) : (s.raise c e).clearErr = s := by
  cases s; simp_all [State.raise, State.clearErr]

end Sys2Proof.Machine
end

