-- ==== Sys2Proof/Laws/Commands.lean ====
section
/-! SUPPORT. What each command can do, said once: every command answers a next state, which is either the fault of a
failed check or the store of the completed command; and what the bytes and words a command writes are. -/

namespace Sys2Proof.Machine

/-! The nine commands, by their checks. -/

/-- QNT raises IO_ERROR, or both ranges lie inside the memories and it stores. -/
theorem execQnt_cases {s t : State} (h : execQnt s = .next t) :
    (t = s.raise .ioError 0x01 ∧ (s.capf < s.srcN + s.lenN ∨ s.capb < s.dstN + 2 * s.lenN)) ∨
    (t = s.qntStore ∧ s.srcN + s.lenN ≤ s.capf ∧ s.dstN + 2 * s.lenN ≤ s.capb) := by
  unfold execQnt State.faulted at h
  split at h
  · next h1 => exact .inl ⟨by cases h; rfl, .inl h1⟩
  · split at h
    · next h1 => exact .inl ⟨by cases h; rfl, .inr h1⟩
    · next h1 h2 => exact .inr ⟨by cases h; rfl, Nat.not_lt.1 h1, Nat.not_lt.1 h2⟩

/-- DQT raises FORMAT_ERROR or IO_ERROR, or its ranges lie inside the stream and FMEM and it stores. -/
theorem execDqt_cases {s t : State} (h : execDqt s = .next t) :
    (t = s.raise .formatError 0x02 ∧ s.blenN < s.srcN + 2 * s.lenN) ∨
    (t = s.raise .ioError 0x02 ∧ s.capf < s.dstN + s.lenN) ∨
    (t = s.writeWords s.dstN s.dqtWords ∧ s.srcN + 2 * s.lenN ≤ s.blenN ∧ s.dstN + s.lenN ≤ s.capf) := by
  unfold execDqt State.faulted at h
  split at h
  · next h1 => exact .inl ⟨by cases h; rfl, h1⟩
  · split at h
    · next h1 => exact .inr (.inl ⟨by cases h; rfl, h1⟩)
    · next h1 h2 => exact .inr (.inr ⟨by cases h; rfl, Nat.not_lt.1 h1, Nat.not_lt.1 h2⟩)

/-- MRG raises INVALID_ARGUMENT or IO_ERROR, or its ranges are disjoint and inside FMEM and it stores. -/
theorem execMrg_cases {s t : State} (h : execMrg s = .next t) :
    (∃ c, t = s.raise c 0x03) ∨
    (t = s.writeWords s.dstN s.mrgWords ∧ s.nchN ≠ 0 ∧ ¬ rangesOverlap s.srcN s.mrgCount s.dstN s.mrgCount ∧
      s.srcN + s.mrgCount ≤ s.capf ∧ s.dstN + s.mrgCount ≤ s.capf) := by
  unfold execMrg State.faulted at h
  split at h
  · exact .inl ⟨_, by cases h; rfl⟩
  · split at h
    · exact .inl ⟨_, by cases h; rfl⟩
    · split at h
      · exact .inl ⟨_, by cases h; rfl⟩
      · split at h
        · exact .inl ⟨_, by cases h; rfl⟩
        · next h1 h2 h3 h4 => exact .inr ⟨by cases h; rfl, h1, h2, Nat.not_lt.1 h3, Nat.not_lt.1 h4⟩

/-- SEP raises INVALID_ARGUMENT or IO_ERROR, or its ranges are disjoint and inside FMEM and it stores. -/
theorem execSep_cases {s t : State} (h : execSep s = .next t) :
    (∃ c, t = s.raise c 0x04) ∨
    (t = s.sepStore ∧ s.nchN ≠ 0 ∧ ¬ rangesOverlap s.srcN s.lenN s.dstN s.sepCount ∧
      s.srcN + s.lenN ≤ s.capf ∧ s.dstN + s.sepCount ≤ s.capf) := by
  unfold execSep State.faulted at h
  split at h
  · exact .inl ⟨_, by cases h; rfl⟩
  · split at h
    · exact .inl ⟨_, by cases h; rfl⟩
    · split at h
      · exact .inl ⟨_, by cases h; rfl⟩
      · split at h
        · exact .inl ⟨_, by cases h; rfl⟩
        · next h1 h2 h3 h4 => exact .inr ⟨by cases h; rfl, h1, h2, Nat.not_lt.1 h3, Nat.not_lt.1 h4⟩

/-- HBLD raises INVALID_ARGUMENT, or writes the built header. -/
theorem execHbld_cases {s t : State} (h : execHbld s = .next t) :
    (t = s.raise .invalidArgument 0x05 ∧ (s.nchN = 0 ∨ maxSamples < s.lenN)) ∨
    (t = { s with hdr := buildHeader s.lenN s.nch } ∧ s.nchN ≠ 0 ∧ s.lenN ≤ maxSamples) := by
  unfold execHbld State.faulted at h
  split at h
  · next h1 => exact .inl ⟨by cases h; rfl, .inl h1⟩
  · split at h
    · next h1 => exact .inl ⟨by cases h; rfl, .inr h1⟩
    · next h1 h2 => exact .inr ⟨by cases h; rfl, h1, Nat.not_lt.1 h2⟩

/-- HPCK raises IO_ERROR, or the 44 bytes fit and it stores. -/
theorem execHpck_cases {s t : State} (h : execHpck s = .next t) :
    (t = s.raise .ioError 0x06 ∧ s.capb < s.dstN + 44) ∨ (t = s.hpckStore ∧ s.dstN + 44 ≤ s.capb) := by
  unfold execHpck State.faulted at h
  split at h
  · next h1 => exact .inl ⟨by cases h; rfl, h1⟩
  · next h1 => exact .inr ⟨by cases h; rfl, Nat.not_lt.1 h1⟩

/-- HUPK raises FORMAT_ERROR, or the 44 bytes lie in the stream with the four tags and it writes the parsed header. -/
theorem execHupk_cases {s t : State} (h : execHupk s = .next t) :
    (t = s.raise .formatError 0x07 ∧ (s.blenN < s.srcN + 44 ∨ ¬ (s.parseHeader s.srcN).tagsOk)) ∨
    (t = { s with hdr := s.parseHeader s.srcN } ∧ s.srcN + 44 ≤ s.blenN ∧ (s.parseHeader s.srcN).tagsOk) := by
  unfold execHupk State.faulted at h
  split at h
  · next h1 => exact .inl ⟨by cases h; rfl, .inl h1⟩
  · split at h
    · next h1 h2 => exact .inr ⟨by cases h; rfl, Nat.not_lt.1 h1, h2⟩
    · next h1 h2 => exact .inl ⟨by cases h; rfl, .inr h2⟩

/-- SCNT always completes. -/
theorem execScnt_eq (s : State) :
    execScnt s = .next { s with
      len := BitVec.ofNat 32 (s.hdr.dataSize.toNat / 2)
      flags := s.flags.addOdd (decide (s.hdr.dataSize.toNat % 2 = 1)) } := rfl

/-! What QNT writes. -/

@[simp] theorem State.length_qntResults (s : State) : s.qntResults.length = s.lenN := by simp [State.qntResults]

/-- The i-th result of QNT is the quantized i-th sample. -/
theorem State.getElem_qntResults (s : State) {i : Nat} (h : i < s.lenN) :
    s.qntResults[i]'(by simpa using h) = quant (s.readF (s.srcN + i)) s.ctrl.rmode := by
  simp [State.qntResults]

/-- A list of pairs laid out flat has twice its length. -/
theorem length_flatMap_pair {β γ : Type} (xs : List β) (f g : β → γ) :
    (xs.flatMap fun x => [f x, g x]).length = 2 * xs.length := by
  induction xs with
  | nil => rfl
  | cons x xs ih => simp only [List.flatMap_cons, List.length_append, ih, List.length_cons, List.length_nil]; omega

/-- A list of pairs laid out flat holds pair i at 2i and 2i + 1. -/
theorem getElem?_flatMap_pair {β γ : Type} (xs : List β) (f g : β → γ) (i : Nat) :
    (xs.flatMap fun x => [f x, g x])[2 * i]? = xs[i]?.map f ∧
      (xs.flatMap fun x => [f x, g x])[2 * i + 1]? = xs[i]?.map g := by
  induction xs generalizing i with
  | nil => simp
  | cons x xs ih =>
    cases i with
    | zero => simp
    | succ i =>
      have h1 : 2 * (i + 1) = 2 * i + 1 + 1 := by omega
      simpa [h1] using ih i

@[simp] theorem State.length_qntBytes (s : State) : s.qntBytes.length = 2 * s.lenN := by
  rw [State.qntBytes, length_flatMap_pair, State.length_qntResults]

/-- The two bytes of sample i. -/
theorem State.getElem?_qntBytes (s : State) {i : Nat} (h : i < s.lenN) :
    s.qntBytes[2 * i]? = some (pack16 (quant (s.readF (s.srcN + i)) s.ctrl.rmode).q).1 ∧
      s.qntBytes[2 * i + 1]? = some (pack16 (quant (s.readF (s.srcN + i)) s.ctrl.rmode).q).2 := by
  have hg : s.qntResults[i]? = some (quant (s.readF (s.srcN + i)) s.ctrl.rmode) := by
    rw [List.getElem?_eq_getElem (by simpa using h), State.getElem_qntResults s h]
  have := getElem?_flatMap_pair s.qntResults (fun r => (pack16 r.q).1) (fun r => (pack16 r.q).2) i
  rw [hg] at this
  exact this

/-- Some result of QNT has a property exactly when some sample's result has it. -/
theorem State.any_qntResults (s : State) (p : Quantized → Bool) :
    s.qntResults.any p = true ↔ ∃ i < s.lenN, p (quant (s.readF (s.srcN + i)) s.ctrl.rmode) = true := by
  simp [State.qntResults]

/-! What DQT, MRG and SEP write. -/

@[simp] theorem State.length_dqtWords (s : State) : s.dqtWords.length = s.lenN := by simp [State.dqtWords]

@[simp] theorem State.length_mrgWords (s : State) : s.mrgWords.length = s.mrgCount := by simp [State.mrgWords]

@[simp] theorem State.length_sepWords (s : State) : s.sepWords.length = s.sepCount := by simp [State.sepWords]

/-- An index of a table of n rows of m entries lies below n·m. -/
theorem index_lt {n m i c : Nat} (hi : i < n) (hc : c < m) : i * m + c < m * n := by
  calc i * m + c < i * m + m := by omega
    _ = m * (i + 1) := by rw [Nat.mul_succ, Nat.mul_comm]
    _ ≤ m * n := Nat.mul_le_mul_left m hi

/-- The word DQT writes for sample i. -/
theorem State.readF_dqt (s : State) {i : Nat} (h : i < s.lenN) :
    (s.writeWords s.dstN s.dqtWords).readF (s.dstN + i) =
      dequant (unpack16 (s.readB (s.srcN + 2 * i)) (s.readB (s.srcN + 2 * i + 1))) := by
  rw [State.readF_writeWords_at _ _ _ (by simpa using h)]
  simp [State.dqtWords]

/-- The word MRG writes for frame i of channel c. -/
theorem State.readF_mrg (s : State) {i c : Nat} (hi : i < s.lenN) (hc : c < s.nchN) :
    (s.writeWords s.dstN s.mrgWords).readF (s.dstN + i * s.nchN + c) = s.readF (s.srcN + c * s.lenN + i) := by
  have hk : i * s.nchN + c < s.mrgWords.length := by
    rw [State.length_mrgWords]; exact index_lt hi hc
  rw [Nat.add_assoc, State.readF_writeWords_at _ _ _ hk]
  have h1 : (i * s.nchN + c) % s.nchN = c := by
    rw [Nat.add_comm, Nat.add_mul_mod_self_right, Nat.mod_eq_of_lt hc]
  have h2 : (i * s.nchN + c) / s.nchN = i := by
    rw [Nat.add_comm, Nat.add_mul_div_right _ _ (by omega), Nat.div_eq_of_lt hc, Nat.zero_add]
  simp [State.mrgWords, h1, h2]

/-- The word SEP writes for sample k of channel c. -/
theorem State.readF_sep (s : State) {c k : Nat} (hc : c < s.nchN) (hk : k < s.sepLen) :
    (s.writeWords s.dstN s.sepWords).readF (s.dstN + c * s.sepLen + k) = s.readF (s.srcN + k * s.nchN + c) := by
  have hl : c * s.sepLen + k < s.sepWords.length := by
    rw [State.length_sepWords, State.sepCount, Nat.mul_comm s.nchN]; exact index_lt hc hk
  rw [Nat.add_assoc, State.readF_writeWords_at _ _ _ hl]
  have h1 : (c * s.sepLen + k) % s.sepLen = k := by
    rw [Nat.add_comm, Nat.add_mul_mod_self_right, Nat.mod_eq_of_lt hk]
  have h2 : (c * s.sepLen + k) / s.sepLen = c := by
    rw [Nat.add_comm, Nat.add_mul_div_right _ _ (by omega), Nat.div_eq_of_lt hk, Nat.zero_add]
  simp [State.sepWords, h1, h2]

/-! What HPCK writes and HUPK reads. -/

@[simp] theorem length_headerBytes (h : Header) : (headerBytes h).length = 44 := by simp [headerBytes]

/-- `MemRead` inside a written block gives v when the block holds the bytes of v there. -/
theorem State.memRead_writeBytes (s : State) (a off n v : Nat) (bs : List Byte) (hv : v < 256 ^ n)
    (h : ∀ k < n, bs[off + k]? = some (BitVec.ofNat 8 (v / 256 ^ k))) :
    (s.writeBytes a bs).memRead (a + off) n = v := by
  rw [State.memRead_of_leBytes (v := v), Nat.mod_eq_of_lt hv]
  intro k hk
  rw [State.readB_writeBytes, if_pos (by omega), show a + off + k - a = off + k by omega, h k hk]
  rfl

/-- Byte k of a number `MemRead` gives is the byte at index a + k. -/
theorem State.byte_of_memRead (s : State) {a n k : Nat} (hk : k < n) :
    BitVec.ofNat 8 (s.memRead a n / 256 ^ k) = s.readB (a + k) := by
  induction n generalizing a k with
  | zero => omega
  | succ n ih =>
    have hb := (s.readB a).isLt
    cases k with
    | zero =>
      apply BitVec.eq_of_toNat_eq
      rw [State.memRead, BitVec.toNat_ofNat]
      simp only [Nat.pow_zero, Nat.div_one, Nat.add_zero]
      omega
    | succ k =>
      have h1 : s.memRead a (n + 1) / 256 ^ (k + 1) = s.memRead (a + 1) n / 256 ^ k := by
        rw [State.memRead, Nat.pow_succ', ← Nat.div_div_eq_div_mul]
        congr 1
        omega
      rw [h1, ih (by omega), show a + (k + 1) = a + 1 + k by omega]

/-- Where HPCK wrote a header, each field reads back at its offset and width (R80, R124). -/
theorem State.memRead_headerBytes (s : State) (d : Nat) (h : Header) :
    let t := s.writeBytes d (headerBytes h)
    t.memRead (d + 0) 4 = h.riffId.toNat ∧ t.memRead (d + 4) 4 = h.fileSize.toNat ∧
    t.memRead (d + 8) 4 = h.waveTag.toNat ∧ t.memRead (d + 12) 4 = h.fmtId.toNat ∧
    t.memRead (d + 16) 4 = h.fmtSize.toNat ∧ t.memRead (d + 20) 2 = h.formatCode.toNat ∧
    t.memRead (d + 22) 2 = h.channelCount.toNat ∧ t.memRead (d + 24) 4 = h.sampleRate.toNat ∧
    t.memRead (d + 28) 4 = h.byteRate.toNat ∧ t.memRead (d + 32) 2 = h.blockAlign.toNat ∧
    t.memRead (d + 34) 2 = h.bitsPerSample.toNat ∧ t.memRead (d + 36) 4 = h.dataId.toNat ∧
    t.memRead (d + 40) 4 = h.dataSize.toNat := by
  refine ⟨?_, ?_, ?_, ?_, ?_, ?_, ?_, ?_, ?_, ?_, ?_, ?_, ?_⟩ <;>
    refine State.memRead_writeBytes _ _ _ _ _ _ (BitVec.isLt _) fun k hk => ?_ <;>
    interval_cases k <;>
    simp [headerBytes, leBytes, Nat.div_div_eq_div_mul]

/-- HUPK parses back the header that HPCK wrote (R127). -/
theorem State.parseHeader_headerBytes (s : State) (d : Nat) (h : Header) :
    (s.writeBytes d (headerBytes h)).parseHeader d = h := by
  obtain ⟨h0, h1, h2, h3, h4, h5, h6, h7, h8, h9, h10, h11, h12⟩ := s.memRead_headerBytes d h
  simp only [State.parseHeader, State.readField32, State.readField16, h0, h1, h2, h3, h4, h5, h6, h7, h8, h9, h10,
    h11, h12, BitVec.ofNat_toNat, BitVec.setWidth_eq]

/-- A 4-byte field register holds the number `MemRead` gives. -/
theorem State.readField32_toNat (s : State) (a : Nat) : (s.readField32 a).toNat = s.memRead a 4 := by
  rw [State.readField32, BitVec.toNat_ofNat]
  exact Nat.mod_eq_of_lt (s.memRead_lt a 4)

/-- A 2-byte field register holds the number `MemRead` gives. -/
theorem State.readField16_toNat (s : State) (a : Nat) : (s.readField16 a).toNat = s.memRead a 2 := by
  rw [State.readField16, BitVec.toNat_ofNat]
  exact Nat.mod_eq_of_lt (s.memRead_lt a 2)

/-- The four bytes of a number read from BMEM. -/
theorem State.leBytes_memRead4 (s : State) (a off : Nat) : leBytes 4 (s.memRead (a + off) 4) =
    [s.readB (a + off), s.readB (a + (off + 1)), s.readB (a + (off + 2)), s.readB (a + (off + 3))] := by
  have h0 := s.byte_of_memRead (a := a + off) (n := 4) (k := 0) (by omega)
  have h1 := s.byte_of_memRead (a := a + off) (n := 4) (k := 1) (by omega)
  have h2 := s.byte_of_memRead (a := a + off) (n := 4) (k := 2) (by omega)
  have h3 := s.byte_of_memRead (a := a + off) (n := 4) (k := 3) (by omega)
  simp only [Nat.pow_zero, Nat.div_one, Nat.pow_one, Nat.add_zero, Nat.add_assoc] at h0 h1 h2 h3
  simp only [leBytes, Nat.div_div_eq_div_mul, h0, h1]
  exact congrArg₂ (fun x y => [s.readB (a + off), s.readB (a + (off + 1)), x, y]) h2 h3

/-- The two bytes of a number read from BMEM. -/
theorem State.leBytes_memRead2 (s : State) (a off : Nat) :
    leBytes 2 (s.memRead (a + off) 2) = [s.readB (a + off), s.readB (a + (off + 1))] := by
  have h0 := s.byte_of_memRead (a := a + off) (n := 2) (k := 0) (by omega)
  have h1 := s.byte_of_memRead (a := a + off) (n := 2) (k := 1) (by omega)
  simp only [Nat.pow_zero, Nat.div_one, Nat.pow_one, Nat.add_zero, Nat.add_assoc] at h0 h1
  simp only [leBytes, h0, h1]

/-- The bytes of a parsed header are the 44 bytes it was parsed from (R127). -/
theorem State.headerBytes_parseHeader (s : State) (a : Nat) :
    headerBytes (s.parseHeader a) = (List.range 44).map fun k => s.readB (a + k) := by
  simp only [headerBytes, State.parseHeader, State.readField32_toNat, State.readField16_toNat,
    State.leBytes_memRead4, State.leBytes_memRead2]
  rfl

/-! What the stores of QNT, SEP and HPCK leave as it was, and what they set. -/

@[simp] theorem State.qntStore_src (s : State) : s.qntStore.src = s.src := by simp [State.qntStore]
@[simp] theorem State.qntStore_dst (s : State) : s.qntStore.dst = s.dst := by simp [State.qntStore]
@[simp] theorem State.qntStore_len (s : State) : s.qntStore.len = s.len := by simp [State.qntStore]
@[simp] theorem State.qntStore_nch (s : State) : s.qntStore.nch = s.nch := by simp [State.qntStore]
@[simp] theorem State.qntStore_flags (s : State) :
    s.qntStore.flags = s.qntFlags := rfl
@[simp] theorem State.qntStore_err (s : State) : s.qntStore.err = s.err := by simp [State.qntStore]
@[simp] theorem State.qntStore_ctrl (s : State) : s.qntStore.ctrl = s.ctrl := by simp [State.qntStore]
@[simp] theorem State.qntStore_blen (s : State) :
    s.qntStore.blen = if 0 < s.lenN then s.raisedBlen (s.dstN + 2 * s.lenN) else s.blen := rfl
@[simp] theorem State.qntStore_hdr (s : State) : s.qntStore.hdr = s.hdr := by simp [State.qntStore]
@[simp] theorem State.qntStore_capf (s : State) : s.qntStore.capf = s.capf := by simp [State.qntStore]
@[simp] theorem State.qntStore_capb (s : State) : s.qntStore.capb = s.capb := by simp [State.qntStore]
@[simp] theorem State.qntStore_fmem (s : State) : s.qntStore.fmem = s.fmem := by simp [State.qntStore]
@[simp] theorem State.qntStore_bmem (s : State) :
    s.qntStore.bmem = (s.writeBytes s.dstN s.qntBytes).bmem := rfl
@[simp] theorem State.qntStore_epoch (s : State) : s.qntStore.epoch = s.epoch := by simp [State.qntStore]
@[simp] theorem State.qntStore_script (s : State) : s.qntStore.script = s.script := by simp [State.qntStore]
@[simp] theorem State.qntStore_returned (s : State) : s.qntStore.returned = s.returned := by simp [State.qntStore]

@[simp] theorem State.sepStore_src (s : State) : s.sepStore.src = s.src := by simp [State.sepStore]
@[simp] theorem State.sepStore_dst (s : State) : s.sepStore.dst = s.dst := by simp [State.sepStore]
@[simp] theorem State.sepStore_len (s : State) : s.sepStore.len = s.len := by simp [State.sepStore]
@[simp] theorem State.sepStore_nch (s : State) : s.sepStore.nch = s.nch := by simp [State.sepStore]
@[simp] theorem State.sepStore_flags (s : State) :
    s.sepStore.flags = s.flags.addRem (decide (s.lenN % s.nchN ≠ 0)) := rfl
@[simp] theorem State.sepStore_err (s : State) : s.sepStore.err = s.err := by simp [State.sepStore]
@[simp] theorem State.sepStore_ctrl (s : State) : s.sepStore.ctrl = s.ctrl := by simp [State.sepStore]
@[simp] theorem State.sepStore_blen (s : State) : s.sepStore.blen = s.blen := by simp [State.sepStore]
@[simp] theorem State.sepStore_hdr (s : State) : s.sepStore.hdr = s.hdr := by simp [State.sepStore]
@[simp] theorem State.sepStore_capf (s : State) : s.sepStore.capf = s.capf := by simp [State.sepStore]
@[simp] theorem State.sepStore_capb (s : State) : s.sepStore.capb = s.capb := by simp [State.sepStore]
@[simp] theorem State.sepStore_fmem (s : State) :
    s.sepStore.fmem = (s.writeWords s.dstN s.sepWords).fmem := rfl
@[simp] theorem State.sepStore_bmem (s : State) : s.sepStore.bmem = s.bmem := by simp [State.sepStore]
@[simp] theorem State.sepStore_epoch (s : State) : s.sepStore.epoch = s.epoch := by simp [State.sepStore]
@[simp] theorem State.sepStore_script (s : State) : s.sepStore.script = s.script := by simp [State.sepStore]
@[simp] theorem State.sepStore_returned (s : State) : s.sepStore.returned = s.returned := by simp [State.sepStore]

@[simp] theorem State.hpckStore_src (s : State) : s.hpckStore.src = s.src := by simp [State.hpckStore]
@[simp] theorem State.hpckStore_dst (s : State) : s.hpckStore.dst = s.dst := by simp [State.hpckStore]
@[simp] theorem State.hpckStore_len (s : State) : s.hpckStore.len = s.len := by simp [State.hpckStore]
@[simp] theorem State.hpckStore_nch (s : State) : s.hpckStore.nch = s.nch := by simp [State.hpckStore]
@[simp] theorem State.hpckStore_flags (s : State) : s.hpckStore.flags = s.flags := by simp [State.hpckStore]
@[simp] theorem State.hpckStore_err (s : State) : s.hpckStore.err = s.err := by simp [State.hpckStore]
@[simp] theorem State.hpckStore_ctrl (s : State) : s.hpckStore.ctrl = s.ctrl := by simp [State.hpckStore]
@[simp] theorem State.hpckStore_blen (s : State) :
    s.hpckStore.blen = BitVec.ofNat 32 (max s.blenN (s.dstN + headerLength)) := rfl
@[simp] theorem State.hpckStore_hdr (s : State) : s.hpckStore.hdr = s.hdr := by simp [State.hpckStore]
@[simp] theorem State.hpckStore_capf (s : State) : s.hpckStore.capf = s.capf := by simp [State.hpckStore]
@[simp] theorem State.hpckStore_capb (s : State) : s.hpckStore.capb = s.capb := by simp [State.hpckStore]
@[simp] theorem State.hpckStore_fmem (s : State) : s.hpckStore.fmem = s.fmem := by simp [State.hpckStore]
@[simp] theorem State.hpckStore_bmem (s : State) :
    s.hpckStore.bmem = (s.writeBytes s.dstN (headerBytes s.hdr)).bmem := rfl
@[simp] theorem State.hpckStore_epoch (s : State) : s.hpckStore.epoch = s.epoch := by simp [State.hpckStore]
@[simp] theorem State.hpckStore_script (s : State) : s.hpckStore.script = s.script := by simp [State.hpckStore]
@[simp] theorem State.hpckStore_returned (s : State) : s.hpckStore.returned = s.returned := by simp [State.hpckStore]

/-- BMEM after QNT. -/
theorem State.readB_qntStore (s : State) (j : Nat) :
    s.qntStore.readB j = (s.writeBytes s.dstN s.qntBytes).readB j := State.readB_congr (s.qntStore_bmem) (by simp) j

/-- FMEM after SEP. -/
theorem State.readF_sepStore (s : State) (i : Nat) :
    s.sepStore.readF i = (s.writeWords s.dstN s.sepWords).readF i := State.readF_congr (s.sepStore_fmem) (by simp) i

/-- BMEM after HPCK. -/
theorem State.readB_hpckStore (s : State) (j : Nat) :
    s.hpckStore.readB j = (s.writeBytes s.dstN (headerBytes s.hdr)).readB j := State.readB_congr (s.hpckStore_bmem) (by simp) j

/-- Numbers in BMEM after HPCK. -/
theorem State.memRead_hpckStore (s : State) (a n : Nat) :
    s.hpckStore.memRead a n = (s.writeBytes s.dstN (headerBytes s.hdr)).memRead a n :=
  State.memRead_congr fun k _ => s.readB_hpckStore (a + k)

/-! Every command answers a next state: the fault of a failed check, or its own store. -/

/-- No command stops: it answers a next state. -/
theorem exec_next (i : Instr) (s : State) : ∃ t, exec i s = .next t := by
  cases i <;> simp only [exec]
  · exact ⟨_, rfl⟩
  · unfold execQnt State.faulted; split_ifs <;> exact ⟨_, rfl⟩
  · unfold execDqt State.faulted; split_ifs <;> exact ⟨_, rfl⟩
  · unfold execMrg State.faulted; split_ifs <;> exact ⟨_, rfl⟩
  · unfold execSep State.faulted; split_ifs <;> exact ⟨_, rfl⟩
  · unfold execHbld State.faulted; split_ifs <;> exact ⟨_, rfl⟩
  · unfold execHpck State.faulted; split_ifs <;> exact ⟨_, rfl⟩
  · unfold execHupk State.faulted; split_ifs <;> exact ⟨_, rfl⟩
  · exact ⟨_, rfl⟩

/-- What a command has done when it did not fault: its store, with the checks it passed. -/
def Completed (i : Instr) (s t : State) : Prop :=
  match i with
  | .nop => t = s
  | .qnt => t = s.qntStore ∧ s.srcN + s.lenN ≤ s.capf ∧ s.dstN + 2 * s.lenN ≤ s.capb
  | .dqt => t = s.writeWords s.dstN s.dqtWords ∧ s.srcN + 2 * s.lenN ≤ s.blenN ∧ s.dstN + s.lenN ≤ s.capf
  | .mrg => t = s.writeWords s.dstN s.mrgWords ∧ s.nchN ≠ 0 ∧
      ¬ rangesOverlap s.srcN s.mrgCount s.dstN s.mrgCount ∧
      s.srcN + s.mrgCount ≤ s.capf ∧ s.dstN + s.mrgCount ≤ s.capf
  | .sep => t = s.sepStore ∧ s.nchN ≠ 0 ∧ ¬ rangesOverlap s.srcN s.lenN s.dstN s.sepCount ∧
      s.srcN + s.lenN ≤ s.capf ∧ s.dstN + s.sepCount ≤ s.capf
  | .hbld => t = { s with hdr := buildHeader s.lenN s.nch } ∧ s.nchN ≠ 0 ∧ s.lenN ≤ maxSamples
  | .hpck => t = s.hpckStore ∧ s.dstN + 44 ≤ s.capb
  | .hupk => t = { s with hdr := s.parseHeader s.srcN } ∧ s.srcN + 44 ≤ s.blenN ∧ (s.parseHeader s.srcN).tagsOk
  | .scnt => t = { s with
      len := BitVec.ofNat 32 (s.hdr.dataSize.toNat / 2)
      flags := s.flags.addOdd (decide (s.hdr.dataSize.toNat % 2 = 1)) }

/-- What a command can do: raise one fault with its own opcode, writing `ERR` only, or complete (R165). -/
theorem exec_cases {i : Instr} {s t : State} (h : exec i s = .next t) :
    (∃ c, t = s.raise c (commandOp (encode i))) ∨ Completed i s t := by
  cases i <;> simp only [exec] at h
  case nop => cases h; exact .inr rfl
  case qnt => rcases execQnt_cases h with ⟨rfl, _⟩ | h; exacts [.inl ⟨_, rfl⟩, .inr h]
  case dqt => rcases execDqt_cases h with ⟨rfl, _⟩ | ⟨rfl, _⟩ | h; exacts [.inl ⟨_, rfl⟩, .inl ⟨_, rfl⟩, .inr h]
  case mrg => exact execMrg_cases h
  case sep => exact execSep_cases h
  case hbld => rcases execHbld_cases h with ⟨rfl, _⟩ | h; exacts [.inl ⟨_, rfl⟩, .inr h]
  case hpck => rcases execHpck_cases h with ⟨rfl, _⟩ | h; exacts [.inl ⟨_, rfl⟩, .inr h]
  case hupk => rcases execHupk_cases h with ⟨rfl, _⟩ | h; exacts [.inl ⟨_, rfl⟩, .inr h]
  case scnt => rw [execScnt_eq] at h; cases h; exact .inr rfl

end Sys2Proof.Machine
end

