-- ==== Sys2Proof/Laws/Port.lean ====
section
/-! SUPPORT. What a step can do, said once: the places the address decoder gives, and the cases of a host event. -/

namespace Sys2Proof.Machine

/-! The decoder. -/

/-- Decoding the word of a command gives the command. -/
theorem decode_encode (i : Instr) : decode (encode i) = .ok i := by cases i <;> rfl

/-- The command at an opcode, and the opcode of a command. -/
theorem instrOfOpcode_eq_some {n : Nat} {i : Instr} (h : instrOfOpcode n = some i) : n = (encode i).toNat := by
  unfold instrOfOpcode at h
  split at h <;> first | (cases h; rfl) | cases h

/-- A word decodes only to the command whose word it is. -/
theorem eq_encode_of_decode {w : Word} {i : Instr} (h : decode w = .ok i) : w = encode i := by
  unfold decode at h
  split at h
  · cases h
  · next hr =>
    have hrsv : commandRsv w = 0 := by simpa using hr
    split at h
    · next j hj =>
      cases h
      have h1 := instrOfOpcode_eq_some hj
      have h2 : w.toNat = (commandOp w).toNat := by
        have h3 := congrArg BitVec.toNat hrsv
        have h4 : (0 : BitVec 24).toNat = 0 := rfl
        simp only [commandRsv, commandOp, BitVec.extractLsb'_toNat, Nat.shiftRight_eq_div_pow, h4] at h3 ⊢
        have := w.isLt
        omega
      exact BitVec.eq_of_toNat_eq (h2.trans h1)
    · cases h

/-! The address decoder. -/

@[simp] theorem locate_cmd (capf capb : Nat) : locate capf capb .word cmdOffset = some (.reg .cmd) := rfl

@[simp] theorem targetOffset_cmd : targetOffset (.reg .cmd) = cmdOffset := rfl

/-- A `CMD` write is performed as a command (R141). -/
theorem perform_command (w : Word) (s : State) : perform (.write32 cmdOffset w) s = s.command w := rfl

/-- The step of a `CMD` write. -/
theorem step_command {s : State} {w : Word} {rest : List HostEvent} (h : s.nextIsCommand w rest) :
    step s = { s with script := rest }.command w := by
  unfold step State.performNext; rw [h]; rfl

/-- The step of a pending event. -/
theorem step_cons {s : State} {e : HostEvent} {rest : List HostEvent} (h : s.script = e :: rest) :
    step s = perform e { s with script := rest } := by
  unfold step State.performNext; rw [h]

/-- A named register reached through its slot. -/
theorem regOfSlot_regOffset (r : Reg) (h : r.wellFormed = true) : regOfSlot (Fin.ofNat 64 (regOffset r / 4)) = r := by
  cases r with
  | hdr k => revert h; revert k; decide
  | reserved slot => revert h; revert slot; decide
  | _ => rfl

/-- A slot's register is well formed and lies at the slot's offset. -/
theorem regOffset_regOfSlot : ∀ slot : Fin 64, regOffset (regOfSlot slot) = 4 * slot.val ∧
    (regOfSlot slot).wellFormed = true := by decide

/-- A register's offset is a multiple of 4 below 0x100. -/
theorem regOffset_bound (r : Reg) (h : r.wellFormed = true) : regOffset r % 4 = 0 ∧ regOffset r ≤ 0xFC := by
  cases r with
  | hdr k => revert h; revert k; decide
  | reserved slot => revert h; revert slot; decide
  | _ => exact ⟨by decide, by decide⟩

/-- An offset as its space number and the 24 bits below it (R50). -/
theorem offset_split (offset : Offset) :
    offset.toNat = (offset.extractLsb' 24 2).toNat * 2 ^ 24 + (offset.extractLsb' 0 24).toNat := by
  simp only [BitVec.extractLsb'_toNat, Nat.shiftRight_eq_div_pow]
  have := offset.isLt
  omega

/-- Where `locate` places an access, in plain arithmetic (R50 to R54). -/
theorem locate_eq_some (capf capb : Nat) (width : AccessWidth) (offset : Offset) (t : Target)
    (h : locate capf capb width offset = some t) :
    (∃ slot : Fin 64, t = .reg (regOfSlot slot) ∧ offset.toNat = 4 * slot.val ∧ width = .word) ∨
    (∃ i, t = .fmem i ∧ i < capf ∧ offset.toNat = 0x1000000 + 4 * i ∧ width = .word) ∨
    (∃ j, t = .bmem j ∧ j < capb ∧ offset.toNat = 0x2000000 + j ∧ width = .byte) := by
  have hs := offset_split offset
  unfold locate at h
  simp only at h
  split at h
  · next h0 =>
    split at h
    · next hc =>
      refine .inl ⟨Fin.ofNat 64 ((offset.extractLsb' 0 24).toNat / 4), (Option.some.inj h).symm, ?_, hc.2.2⟩
      rw [Fin.val_ofNat]
      omega
    · cases h
  · next h1 =>
    split at h
    · next hc => exact .inr (.inl ⟨_, (Option.some.inj h).symm, hc.1, by omega, hc.2.2⟩)
    · cases h
  · next h2 =>
    split at h
    · next hc => exact .inr (.inr ⟨_, (Option.some.inj h).symm, hc.1, by omega, hc.2⟩)
    · cases h
  · cases h

/-- A word access at a slot of the REG space reaches its register. -/
theorem locate_reg {capf capb : Nat} {offset : Offset} (slot : Fin 64) (h : offset.toNat = 4 * slot.val) :
    locate capf capb .word offset = some (.reg (regOfSlot slot)) := by
  have hs := offset_split offset
  have hb : (offset.extractLsb' 0 24).toNat < 2 ^ 24 := BitVec.isLt _
  have hslot := slot.isLt
  have h0 : (offset.extractLsb' 24 2).toNat = 0 := by omega
  have h1 : (offset.extractLsb' 0 24).toNat = 4 * slot.val := by omega
  unfold locate
  simp only [h0, h1]
  rw [if_pos ⟨by omega, by omega, trivial⟩, show 4 * slot.val / 4 = slot.val by omega]
  simp

/-- A word access in the FMEM window reaches its word. -/
theorem locate_fmem {capf capb i : Nat} {offset : Offset} (hc : capf ≤ 2 ^ 22) (hi : i < capf)
    (h : offset.toNat = 0x1000000 + 4 * i) : locate capf capb .word offset = some (.fmem i) := by
  have hs := offset_split offset
  have hb : (offset.extractLsb' 0 24).toNat < 2 ^ 24 := BitVec.isLt _
  have h0 : (offset.extractLsb' 24 2).toNat = 1 := by omega
  have h1 : (offset.extractLsb' 0 24).toNat = 4 * i := by omega
  unfold locate
  simp only [h0, h1]
  rw [if_pos ⟨by omega, by omega, trivial⟩, show 4 * i / 4 = i by omega]

/-- A byte access in the BMEM window reaches its byte. -/
theorem locate_bmem {capf capb j : Nat} {offset : Offset} (hc : capb ≤ 2 ^ 24) (hj : j < capb)
    (h : offset.toNat = 0x2000000 + j) : locate capf capb .byte offset = some (.bmem j) := by
  have hs := offset_split offset
  have hb : (offset.extractLsb' 0 24).toNat < 2 ^ 24 := BitVec.isLt _
  have h0 : (offset.extractLsb' 24 2).toNat = 2 := by omega
  have h1 : (offset.extractLsb' 0 24).toNat = j := by omega
  unfold locate
  simp only [h0, h1]
  rw [if_pos ⟨by omega, trivial⟩]

/-! The cases of a step. -/

/-- What an event performed with a next state has done. -/
inductive Performed (s : State) : HostEvent → State → Prop where
  | read (width offset x) : Performed s (.read width offset) { s with returned := s.returned ++ [x] }
  | writeB (offset j b) : j < s.capb → Performed s (.write8 offset b) (s.writeB j b)
  | writeF (offset i w) : i < s.capf → Performed s (.write32 offset w) (s.writeF i w)
  | command (w t) : s.command w = .next t → Performed s (.write32 cmdOffset w) t
  | clearErr (v) : Performed s (.write32 0x0000004#26 v) s.clearErr
  | flags (v) : Performed s (.write32 0x0000008#26 v) { s with flags := s.flags.w1c v }
  | ctrl (v) : Performed s (.write32 0x000000C#26 v) (s.writeCtrl v)
  | src (v) : Performed s (.write32 0x0000010#26 v) { s with src := v }
  | dst (v) : Performed s (.write32 0x0000014#26 v) { s with dst := v }
  | len (v) : Performed s (.write32 0x0000018#26 v) { s with len := v }
  | nch (v) : Performed s (.write32 0x000001C#26 v) { s with nch := v.extractLsb' 0 16 }
  | blen (v) : Performed s (.write32 0x0000020#26 v) (s.writeBlen v)
  | ignored (offset v) : Performed s (.write32 offset v) s
  | rst : Performed s .rst s.rst

/-- The offset of a slot. -/
theorem offset_of_slot {offset : Offset} {slot : Fin 64} (h : offset.toNat = 4 * slot.val) :
    offset = BitVec.ofNat 26 (4 * slot.val) := by
  rw [← h]; simp

/-- What a host event can do when it gives a next state. -/
theorem perform_cases {e : HostEvent} {s t : State} (h : perform e s = .next t) : Performed s e t := by
  cases e with
  | read width offset =>
    simp only [perform] at h
    split at h
    · cases h; exact .read ..
    · cases h
  | write8 offset b =>
    simp only [perform] at h
    split at h
    · next j hl =>
      cases h
      rcases locate_eq_some _ _ _ _ _ hl with ⟨_, h1, _⟩ | ⟨_, h1, _⟩ | ⟨_, h1, h2, _⟩
      · cases h1
      · cases h1
      · cases h1; exact .writeB _ _ _ h2
    · cases h
  | write16 offset d => simp [perform] at h
  | write32 offset v =>
    simp only [perform] at h
    split at h
    · next r hl =>
      rcases locate_eq_some _ _ _ _ _ hl with ⟨slot, h1, h2, _⟩ | ⟨_, h1, _⟩ | ⟨_, h1, _⟩
      · cases h1
        rw [offset_of_slot h2]
        clear hl h2
        unfold State.regWrite regOfSlot at h
        obtain ⟨n, hn⟩ := slot
        interval_cases n <;> first | exact .command _ _ h | (cases h; constructor)
      · cases h1
      · cases h1
    · next i hl =>
      cases h
      rcases locate_eq_some _ _ _ _ _ hl with ⟨_, h1, _⟩ | ⟨_, h1, h2, _⟩ | ⟨_, h1, _⟩
      · cases h1
      · cases h1; exact .writeF _ _ _ h2
      · cases h1
    · cases h
  | rst => simp only [perform] at h; cases h; exact .rst

/-- What a command write can do: it is dropped, it latches ILLEGAL_COMMAND, or it is a command run with the latch
clear. -/
theorem command_cases {s t : State} {w : Word} (h : s.command w = .next t) :
    (s.err ≠ none ∧ t = s) ∨
    (s.err = none ∧ t = s.raise .illegalCommand (commandOp w) ∧ ∀ i, decode w ≠ .ok i) ∨
    (∃ i, s.err = none ∧ w = encode i ∧ exec i s = .next t) := by
  unfold State.command at h
  split at h
  · next r hr => cases h; exact .inl ⟨by rw [hr]; simp, rfl⟩
  · next hr =>
    split at h
    · next e he => cases h; exact .inr (.inl ⟨hr, rfl, fun i hi => by rw [he] at hi; cases hi⟩)
    · next i hi => exact .inr (.inr ⟨i, hr, eq_encode_of_decode hi, h⟩)

/-- What a step can do: nothing with no event left, else what its event does. -/
theorem step_cases {s t : State} (h : step s = .next t) :
    (s.script = [] ∧ t = s) ∨ ∃ e rest, s.script = e :: rest ∧ Performed { s with script := rest } e t := by
  unfold step State.performNext at h
  split at h
  · next h0 => cases h; exact .inl ⟨h0, rfl⟩
  · next e rest h0 => exact .inr ⟨e, rest, h0, perform_cases h⟩

end Sys2Proof.Machine
end

