-- ==== Sys2Proof/Laws/Invariant.lean ====
section
/-! SUPPORT. Legal states: a state whose fields meet the parts of `State.Inv` is legal, and what HBLD builds is a tagged
header. -/

namespace Sys2Proof.Machine

/-- A state with the capacities and the epoch of a legal one, and with its own BLEN, memories and header in order, is
legal. -/
theorem inv_of_fields {s t : State} (hi : s.Inv) (hf : t.capf = s.capf) (hb : t.capb = s.capb)
    (he : t.epoch = s.epoch) (hl : t.blenN ≤ s.capb)
    (hfm : Memory.wf (Config.fmemFree s.epoch) t.fmem ∧ ∀ c ∈ t.fmem, c.1 < s.capf)
    (hbm : Memory.wf (Config.bmemFree s.epoch) t.bmem ∧ ∀ c ∈ t.bmem, c.1 < s.capb)
    (hh : t.hdr = Header.zero ∨ t.hdr.tagsOk) : t.Inv where
  capacities := by unfold State.capacitiesOk; rw [hf, hb]; exact hi.capacities
  blenBound := by rw [hb]; exact hl
  fmemForm := by unfold State.fmemOk; rw [hf, he]; exact hfm
  bmemForm := by unfold State.bmemOk; rw [hb, he]; exact hbm
  headerForm := hh

/-- A built header has the four tags (R120). -/
theorem buildHeader_tagsOk (n : Nat) (c : Half) : (buildHeader n c).tagsOk := ⟨rfl, rfl, rfl, rfl⟩

/-- The bytes of a built header are the header image (R85). -/
theorem headerBytes_buildHeader (n : Nat) (c : Half) (h : n ≤ maxSamples) :
    headerBytes (buildHeader n c) = headerImage n c.toNat := by
  unfold maxSamples at h
  have h1 : (BitVec.ofNat 32 (36 + 2 * n)).toNat = 36 + 2 * n := by rw [BitVec.toNat_ofNat]; omega
  have h2 : (BitVec.ofNat 32 (2 * n)).toNat = 2 * n := by rw [BitVec.toNat_ofNat]; omega
  simp only [headerBytes, buildHeader, headerImage, bytesPerSample, headerLength, h1, h2]
  simp [leBytes, tagRiff, tagWave, tagFmt, tagData, fmtSize, formatPcm, byteRate, blockAlign, bitsPerSample,
    sampleRate, bytesPerSample]

/-- One step, then the rest of a run. -/
theorem run_succ (M : Host.Core) {s s' : M.State} {k : Nat} (h : M.step s = .next s') :
    M.run (k + 1) s = M.run k s' := by
  rw [Host.Core.run, h]

end Sys2Proof.Machine
end

