-- ==== Sys2Proof/Laws/Numbers.lean ====
section
/-! SUPPORT. The codec's integer arithmetic against its rational reference: the two roundings on fractions, the scaled
value of a sample word, the clamp and the magnitude comparison. -/

namespace Sys2Proof.Machine

/-- The floor of a fraction of naturals is their quotient. -/
theorem floor_div (n d : ℕ) : ⌊(n : ℚ) / d⌋ = ((n / d : ℕ) : ℤ) := by
  rw [Rat.floor_natCast_div_natCast]; simp

/-- The fractional part of a fraction of naturals is the remainder over the denominator. -/
theorem frac_div (n : ℕ) {d : ℕ} (hd : 0 < d) :
    (n : ℚ) / d - ((n / d : ℕ) : ℤ) = ((n % d : ℕ) : ℚ) / d := by
  have h : (n : ℚ) = d * ((n / d : ℕ) : ℚ) + ((n % d : ℕ) : ℚ) := by exact_mod_cast (Nat.div_add_mod n d).symm
  have hd' : (d : ℚ) ≠ 0 := by exact_mod_cast hd.ne'
  rw [Int.cast_natCast, sub_eq_iff_eq_add, ← mul_left_inj' hd', div_mul_cancel₀ _ hd', add_mul,
    div_mul_cancel₀ _ hd']
  linarith

/-- `rneDiv` is rne_int on a fraction of naturals (R90). -/
theorem rneInt_div (n : ℕ) {d : ℕ} (hd : 0 < d) : rneInt ((n : ℚ) / d) = rneDiv n d := by
  have hd' : (0 : ℚ) < d := by exact_mod_cast hd
  have h1 : ((n : ℚ) / d - ⌊(n : ℚ) / d⌋ < 1 / 2) ↔ 2 * (n % d) < d := by
    rw [floor_div, frac_div n hd, div_lt_div_iff₀ hd' (by norm_num)]
    constructor <;> intro h
    · have : (n % d) * 2 < 1 * d := by exact_mod_cast h
      omega
    · have : (n % d) * 2 < 1 * d := by omega
      exact_mod_cast this
  have h2 : (1 / 2 < (n : ℚ) / d - ⌊(n : ℚ) / d⌋) ↔ d < 2 * (n % d) := by
    rw [floor_div, frac_div n hd, div_lt_div_iff₀ (by norm_num) hd']
    constructor <;> intro h
    · have : 1 * d < (n % d) * 2 := by exact_mod_cast h
      omega
    · have : 1 * d < (n % d) * 2 := by omega
      exact_mod_cast this
  unfold rneInt rneDiv
  simp only [h1, h2]
  rw [floor_div]
  split
  · rfl
  · split
    · rfl
    · generalize n / d = k
      split <;> push_cast <;> omega

/-- rne_int is odd (R90). -/
theorem rneInt_neg (p : ℚ) : rneInt (-p) = -rneInt p := by
  have hf : ((⌊p⌋ : ℤ) : ℚ) ≤ p := Int.floor_le p
  have hl := Int.lt_floor_add_one p
  by_cases hp : p = ⌊p⌋
  · have h1 : ⌊-p⌋ = -⌊p⌋ := by rw [Int.floor_eq_iff]; push_cast; constructor <;> linarith
    have h2 : p - ⌊p⌋ = 0 := by linarith
    have h3 : -p - ⌊-p⌋ = 0 := by rw [h1]; push_cast; linarith
    unfold rneInt; rw [h2, h3, h1]; norm_num
  · have hlt : ((⌊p⌋ : ℤ) : ℚ) < p := lt_of_le_of_ne hf (Ne.symm hp)
    have h1 : ⌊-p⌋ = -⌊p⌋ - 1 := by
      rw [Int.floor_eq_iff]; push_cast; constructor <;> linarith
    unfold rneInt
    rw [h1]
    push_cast
    by_cases a : p - ⌊p⌋ < 1 / 2
    · rw [if_pos a, if_neg (by linarith), if_pos (by linarith)]; ring
    · by_cases b : 1 / 2 < p - ⌊p⌋
      · rw [if_neg a, if_pos b, if_pos (by linarith)]; ring
      · rw [if_neg a, if_neg b, if_neg (by linarith), if_neg (by linarith)]
        split <;> split <;> omega

/-- `rtzDiv` is rtz_int on a fraction of naturals (R91). -/
theorem rtzInt_div (n d : ℕ) : rtzInt ((n : ℚ) / d) = rtzDiv n d := by
  unfold rtzInt rtzDiv
  rw [if_pos (by positivity), floor_div]

/-- rtz_int is odd (R91). -/
theorem rtzInt_neg (p : ℚ) : rtzInt (-p) = -rtzInt p := by
  unfold rtzInt
  by_cases h : p = 0
  · subst h; simp
  · by_cases h0 : 0 ≤ p
    · have : 0 < p := lt_of_le_of_ne h0 (Ne.symm h)
      rw [if_neg (by linarith), if_pos h0]; simp
    · rw [if_pos (by linarith), if_neg h0]; simp

/-- `roundDiv` is the selected rounding on a fraction of naturals. -/
theorem roundInt_div (rm : RoundMode) (n : ℕ) {d : ℕ} (hd : 0 < d) :
    roundInt rm ((n : ℚ) / d) = roundDiv rm n d := by
  cases rm
  · exact rneInt_div n hd
  · exact rtzInt_div n d

/-- Both roundings are odd. -/
theorem roundInt_neg (rm : RoundMode) (p : ℚ) : roundInt rm (-p) = -roundInt rm p := by
  cases rm
  · exact rneInt_neg p
  · exact rtzInt_neg p

/-- The denominator of the scaled magnitude is positive. -/
theorem scaledDen_pos (w : Word) : 0 < scaledDen w := by unfold scaledDen; positivity

/-- A biased exponent has eight bits. -/
theorem sampleExp_lt (w : Word) : sampleExp w < 256 := (w.extractLsb' 23 8).isLt

/-- The scaled value of a word is the signed fraction `scaledNum` / `scaledDen` (R92). -/
theorem f32Val_scaled (w : Word) :
    f32Val w * 32767 = signFactor (sampleSign w) * ((scaledNum w : ℚ) / scaledDen w) := by
  unfold f32Val scaledNum scaledDen significand qmax
  by_cases h : sampleExp w = 0
  · simp only [h, if_pos]
    push_cast
    norm_num
    ring
  · simp only [h, if_false]
    have hE : max (sampleExp w) 1 = sampleExp w := by omega
    rw [hE]
    push_cast
    by_cases hb : 150 ≤ sampleExp w
    · obtain ⟨k, hk⟩ := Nat.exists_eq_add_of_le hb
      rw [hk]
      simp only [Nat.add_sub_cancel_left, show 150 - (150 + k) = 0 by omega]
      push_cast
      rw [show (150 + (k:ℤ) - 150) = (k : ℤ) by ring, zpow_natCast]
      ring
    · obtain ⟨k, hk⟩ := Nat.exists_eq_add_of_le (Nat.le_of_lt (Nat.lt_of_not_le hb))
      have : sampleExp w - 150 = 0 := by omega
      rw [this, show 150 - sampleExp w = k by omega, show ((sampleExp w : ℤ) - 150) = -(k : ℤ) by omega, zpow_neg,
        zpow_natCast]
      ring

/-- Rounding a signed fraction is the sign on the rounded magnitude. -/
theorem signed_round (rm : RoundMode) (neg : Bool) (n : ℕ) {d : ℕ} (hd : 0 < d) :
    roundInt rm (signFactor neg * ((n : ℚ) / d)) = signed neg (roundDiv rm n d) := by
  cases neg
  · simp [signFactor, signed, roundInt_div rm n hd]
  · simp only [signFactor, signed, if_true, neg_one_mul, roundInt_neg, roundInt_div rm n hd]

/-- Clamping a signed magnitude is the sign on the bounded magnitude. -/
theorem clamp_signed (neg : Bool) (m : ℕ) : clamp (signed neg m) (-32767) 32767 = signed neg (min m qmax) := by
  cases neg <;> simp only [signed, clamp, qmax, if_true, Bool.false_eq_true, if_false] <;>
    split <;> (try split) <;> omega

/-- w[30:0] is the exponent field over the fraction field. -/
theorem sampleMagnitude_eq (w : Word) : sampleMagnitude w = sampleExp w * 2 ^ 23 + sampleFrac w := by
  unfold sampleMagnitude sampleExp sampleFrac
  simp only [BitVec.extractLsb'_toNat, Nat.shiftRight_eq_div_pow]
  omega

/-- A fraction field has 23 bits. -/
theorem sampleFrac_lt (w : Word) : sampleFrac w < 2 ^ 23 := (w.extractLsb' 0 23).isLt

/-- A sign factor has absolute value 1. -/
theorem abs_signFactor (b : Bool) : |signFactor b| = 1 := by cases b <;> simp [signFactor]

/-- |v| > 1 is a comparison of w[30:0] with that of 1.0 (R79). -/
theorem sat_iff (w : Word) : 1 < |f32Val w| ↔ 0x3F800000 < sampleMagnitude w := by
  rw [sampleMagnitude_eq]
  have hf := sampleFrac_lt w
  have hf' : (sampleFrac w : ℚ) < 2 ^ 23 := by exact_mod_cast hf
  unfold f32Val
  by_cases h0 : sampleExp w = 0
  · simp only [h0, if_pos]
    rw [abs_mul, abs_mul, abs_signFactor, abs_of_nonneg (by positivity : (0:ℚ) ≤ sampleFrac w),
      abs_of_pos (by positivity)]
    constructor
    · intro hh
      exfalso
      have : (sampleFrac w : ℚ) * 2 ^ (-149 : ℤ) < 2 ^ 23 * 2 ^ (-149 : ℤ) := by
        apply mul_lt_mul_of_pos_right hf' (by positivity)
      norm_num at *
      linarith
    · intro hh; omega
  · simp only [h0, if_false]
    rw [abs_mul, abs_mul, abs_signFactor, abs_of_nonneg (by positivity : (0:ℚ) ≤ 2 ^ 23 + sampleFrac w),
      abs_of_pos (by positivity), one_mul]
    by_cases hb : 127 ≤ sampleExp w
    · obtain ⟨k, hk⟩ := Nat.exists_eq_add_of_le hb
      by_cases hk0 : k = 0
      · subst hk0
        rw [hk]
        simp only [Nat.add_zero, Nat.cast_ofNat]
        rw [show ((127:ℤ) - 150) = -23 by norm_num, show (2:ℚ) ^ (-23 : ℤ) = 1 / 2 ^ 23 by norm_num [zpow_neg]]
        rw [mul_one_div, lt_div_iff₀ (by positivity)]
        constructor
        · intro hh
          have : (0 : ℚ) < sampleFrac w := by linarith
          have : 0 < sampleFrac w := by exact_mod_cast this
          omega
        · intro hh
          have : 0 < sampleFrac w := by omega
          have : (0 : ℚ) < sampleFrac w := by exact_mod_cast this
          linarith
      · have h2 : (2:ℚ) ^ ((sampleExp w : ℤ) - 150) ≥ 2 ^ (-22 : ℤ) := by
          apply zpow_le_zpow_right₀ (by norm_num); omega
        have h3 : (2 ^ 23 + (sampleFrac w : ℚ)) ≥ 2 ^ 23 := by
          have : (0 : ℚ) ≤ sampleFrac w := by positivity
          linarith
        constructor
        · intro; omega
        · intro
          have := mul_le_mul h3 h2 (by positivity) (by positivity)
          norm_num at this
          norm_num
          linarith
    · constructor
      · intro hh
        exfalso
        have h2 : (2:ℚ) ^ ((sampleExp w : ℤ) - 150) ≤ 2 ^ (-24 : ℤ) := by
          apply zpow_le_zpow_right₀ (by norm_num); omega
        have := mul_le_mul (show (2 ^ 23 + (sampleFrac w : ℚ)) ≤ 2 ^ 24 by linarith [hf']) h2
          (by positivity) (by positivity)
        norm_num at this hh
        linarith
      · intro hh; omega

end Sys2Proof.Machine
end

