-- ==== Sys2Proof/Laws/PerInstr.lean ====
section
/-! SUPPORT. Statements made per command, as syntax: its word decodes back to it, is well formed and is one of the nine
(spec/30_encoding.md R70 to R72). -/

namespace Sys2Proof.Laws

/-- A command's word has its reserved bits clear and a defined opcode, and decodes to the command, from the word and
from the opcode table's numbering alike. -/
def WordRoundTrip.Statement (i : Instr) : Prop :=
  i.wellFormed = true ∧ commandWordWellFormed (encode i) = true ∧ decode (encode i) = .ok i ∧
    decodeTableWord 32 (encode i).toNat = some i

theorem WordRoundTrip.nop : WordRoundTrip.Statement .nop := ⟨rfl, rfl, rfl, rfl⟩
theorem WordRoundTrip.qnt : WordRoundTrip.Statement .qnt := ⟨rfl, rfl, rfl, rfl⟩
theorem WordRoundTrip.dqt : WordRoundTrip.Statement .dqt := ⟨rfl, rfl, rfl, rfl⟩
theorem WordRoundTrip.mrg : WordRoundTrip.Statement .mrg := ⟨rfl, rfl, rfl, rfl⟩
theorem WordRoundTrip.sep : WordRoundTrip.Statement .sep := ⟨rfl, rfl, rfl, rfl⟩
theorem WordRoundTrip.hbld : WordRoundTrip.Statement .hbld := ⟨rfl, rfl, rfl, rfl⟩
theorem WordRoundTrip.hpck : WordRoundTrip.Statement .hpck := ⟨rfl, rfl, rfl, rfl⟩
theorem WordRoundTrip.hupk : WordRoundTrip.Statement .hupk := ⟨rfl, rfl, rfl, rfl⟩
theorem WordRoundTrip.scnt : WordRoundTrip.Statement .scnt := ⟨rfl, rfl, rfl, rfl⟩

end Sys2Proof.Laws
end

