-- ==== Sys2Proof/Tests/Slice0.lean ====
section
/-! SUPPORT. The model's own tests: the ill-formed terms each check refuses, command words and offsets written out from
the spec's encodings, rows of spec/95_test_vectors.md, and for every statement with hypotheses a witness that meets
them. All run on a block with the capacities of the spec's vectors, NF = 64 and NB = 256. -/

namespace Sys2Proof.Tests

open Sys2Proof Sys2Proof.Machine

/-! States of the tests. -/

/-- The block of the spec's vectors after reset (spec/95_test_vectors.md: NF = 64, NB = 256). -/
def block : State := { State.reset with capf := 64, capb := 256 }

/-- The same block with one host event pending. -/
def pending (e : HostEvent) : State := { block with script := [e] }

/-- The same block with a command word pending. -/
def commandPending (w : Word) : State := pending (.write32 cmdOffset w)

/-- The fault of DQT on a short stream, `ERR` = 0x00000202. -/
def dqtFault : FaultRecord := ⟨.formatError, 0x02#8⟩

/-- Consecutive cells of a memory. -/
def cells {α : Type} (a : Nat) : List α → List (Nat × α)
  | [] => []
  | x :: xs => (a, x) :: cells (a + 1) xs

/-- A 44-byte image with the four tags and data_size = 5 (V-HDR-14). -/
def imageBytes : List Byte :=
  [0x52#8, 0x49#8, 0x46#8, 0x46#8, 0xFF#8, 0xFF#8, 0xFF#8, 0xFF#8, 0x57#8, 0x41#8, 0x56#8, 0x45#8, 0x66#8, 0x6D#8]
    ++ [0x74#8, 0x20#8, 0x12#8, 0x00#8, 0x00#8, 0x00#8, 0x03#8, 0x00#8, 0x00#8, 0x00#8, 0x80#8, 0x3E#8, 0x00#8, 0x00#8]
    ++ [0x00#8, 0x00#8, 0x00#8, 0x00#8, 0x01#8, 0x00#8, 0x08#8, 0x00#8, 0x64#8, 0x61#8, 0x74#8, 0x61#8]
    ++ [0x05#8, 0x00#8, 0x00#8, 0x00#8]

/-- The block with that image as its whole stream, behind it room for nothing: BLEN = 44. -/
def imageBlock : State := { block with bmem := cells 0 imageBytes, blen := 44 }

/-- The block with the planar words 0x1000 to 0x1005 at FMEM[0..5] (the start state of V-ILV, its first words). -/
def planarBlock : State :=
  { block with fmem := cells 0 [0x1000#32, 0x1001#32, 0x1002#32, 0x1003#32, 0x1004#32, 0x1005#32] }

/-! WellFormed: an ill-formed term for each check. -/

/-- R70: bit 8 and bit 31 are reserved. -/
theorem test_reserved_bits_refused :
    reservedBitsClear 0x00000101#32 = false ∧ reservedBitsClear 0x80000001#32 = false := by decide

/-- R71, R72: opcode 9 and opcode 0xFF are undefined, 8 is the last. -/
theorem test_undefined_opcode_refused :
    opcodeDefined 0x00000009#32 = false ∧ opcodeDefined 0x000000FF#32 = false ∧
      opcodeDefined 0x00000008#32 = true := by decide

/-- R72: each half of the word check is needed. -/
theorem test_command_word_refused :
    commandWordWellFormed 0x00000009#32 = false ∧ commandWordWellFormed 0x80000001#32 = false ∧
      commandWordWellFormed 0x00000008#32 = true := by decide

/-- R25, R31: slot 10 is CAPB and slot 16 is HDR[0], not reserved; 11, 15, 29 and 63 are. -/
theorem test_register_refused :
    (Reg.reserved 10).wellFormed = false ∧ (Reg.reserved 16).wellFormed = false ∧
      (Reg.reserved 28).wellFormed = false ∧ (Reg.reserved 11).wellFormed = true ∧
      (Reg.reserved 15).wellFormed = true ∧ (Reg.reserved 29).wellFormed = true ∧
      (Reg.reserved 63).wellFormed = true := by decide

/-- R50: an index at the capacity does not exist. -/
theorem test_target_refused :
    (Target.fmem 64).wellFormed 64 256 = false ∧ (Target.bmem 256).wellFormed 64 256 = false ∧
      (Target.reg (.reserved 0)).wellFormed 64 256 = false ∧ (Target.fmem 63).wellFormed 64 256 = true := by decide

/-- R75, R147: a script line's register and index must exist. -/
theorem test_script_line_refused :
    (ScriptLine.wr (.reserved 1) 0).wellFormed 64 256 = false ∧ (ScriptLine.rd (.reserved 1)).wellFormed 64 256 = false ∧
      (ScriptLine.wf 64 0).wellFormed 64 256 = false ∧ (ScriptLine.rf 64).wellFormed 64 256 = false ∧
      (ScriptLine.wb 256 0).wellFormed 64 256 = false ∧ (ScriptLine.rb 256).wellFormed 64 256 = false ∧
      (ScriptLine.cmd .nop).wellFormed 64 256 = true := by decide

/-! Decoding: the words of R71 written out as rsv (24 bits) and op (8 bits). -/

/-- NOP's and the codec's words (R71). -/
theorem test_decode_codec :
    decode (0x000000#24 ++ 0x00#8) = .ok .nop ∧ decode (0x000000#24 ++ 0x01#8) = .ok .qnt ∧
      decode (0x000000#24 ++ 0x02#8) = .ok .dqt := ⟨rfl, rfl, rfl⟩

/-- The interleaver's words (R71). -/
theorem test_decode_interleaver :
    decode (0x000000#24 ++ 0x03#8) = .ok .mrg ∧ decode (0x000000#24 ++ 0x04#8) = .ok .sep := ⟨rfl, rfl⟩

/-- The header unit's words (R71). -/
theorem test_decode_header_unit :
    decode (0x000000#24 ++ 0x05#8) = .ok .hbld ∧ decode (0x000000#24 ++ 0x06#8) = .ok .hpck ∧
      decode (0x000000#24 ++ 0x07#8) = .ok .hupk ∧ decode (0x000000#24 ++ 0x08#8) = .ok .scnt :=
  ⟨rfl, rfl, rfl, rfl⟩

/-- Refused words, by name (R72). -/
theorem test_decode_refused :
    decode (0x000001#24 ++ 0x01#8) = .error .reservedBits ∧ decode (0x800000#24 ++ 0x00#8) = .error .reservedBits ∧
      decode (0x000000#24 ++ 0x09#8) = .error .undefinedOpcode ∧
      decode (0x000000#24 ++ 0xFF#8) = .error .undefinedOpcode := ⟨rfl, rfl, rfl, rfl⟩

/-- Offsets of P1, P2 and V-SYS: registers, memory windows, and what is in none of them (R25, R50 to R54). -/
theorem test_locate :
    locate 64 256 .word 0x0000058#26 = some (.reg (.hdr 6)) ∧ locate 64 256 .word 0x0000074#26 = some (.reg (.reserved 29)) ∧
      locate 64 256 .word 0x1000020#26 = some (.fmem 8) ∧ locate 64 256 .byte 0x20000FF#26 = some (.bmem 255) ∧
      locate 64 256 .word 0x0000100#26 = none ∧ locate 64 256 .byte 0x0000010#26 = none ∧
      locate 64 256 .word 0x0000002#26 = none ∧ locate 64 256 .word 0x1000100#26 = none ∧
      locate 64 256 .word 0x2000000#26 = none ∧ locate 64 256 .byte 0x2000100#26 = none ∧
      locate 64 256 .byte 0x3000000#26 = none := by decide

/-- The command word an opcode-table row gives is the next one performed, and the step runs it. -/
theorem test_withFetchWord_runs : step (State.reset.withFetchWord 32 8) = exec .scnt State.reset := rfl

/-! NOP and dispatch. -/

/-- V-SYS-1. -/
theorem test_nop : step (commandPending 0x00000000#32) = .next block := rfl

/-- V-SYS-4: reserved bits set; EOP is the low byte. -/
theorem test_illegal_command :
    ∃ t, step (commandPending 0x00000101#32) = .next t ∧ t.errWord = 0x00000104#32 := ⟨_, rfl, by decide⟩

/-- V-SYS-6: dropped while a fault is latched. -/
theorem test_dropped_command :
    step { commandPending 0x00000009#32 with err := some dqtFault } = .next { block with err := some dqtFault } := rfl

/-- V-SYS-10: W1C clears SAT and ODD of 0xF. -/
theorem test_flags_w1c :
    flagsWord (Flags.w1c ⟨true, true, true, true⟩ 0x5#32) = 0xA#32 ∧
      flagsWord (Flags.w1c ⟨false, true, false, true⟩ 0xFFFFFFF0#32) = 0xA#32 := by decide

/-- V-SYS-13, V-SYS-14, V-SYS-15: BLEN is bounded, NCH is cut to 16 bits, CTRL to 2. -/
theorem test_register_writes :
    (block.writeBlen 300#32).blen = 256#32 ∧
      step (pending (.write32 0x000001C#26 0x12345#32)) = .next { block with nch := 0x2345#16 } ∧
      ctrlWord (block.writeCtrl 0xFFFFFFFF#32).ctrl = 3#32 := ⟨by decide, rfl, by decide⟩

/-- V-SYS-18: irq rises when the interrupt is enabled under a latched fault. -/
theorem test_irq :
    ({ block with err := some dqtFault } : State).irq = false ∧
      (({ block with err := some dqtFault } : State).writeCtrl 2#32).irq = true := by decide

/-- V-SYS-19: a halfword write is a bus error in every space (R51 to R54). -/
theorem test_bus_error : step (pending (.write16 0x0000010#26 0#16)) = .refused .busError := rfl

/-! The codec. -/

/-- V-QNT-1, 2, 16, 19, 23, 30: ties, clipping on the input, NaN, the smallest word that gives 1. -/
theorem test_quant :
    quant 0x3F000000#32 .rne = ⟨16384, false, false⟩ ∧ quant 0xBF000000#32 .rtz = ⟨-16383, false, false⟩ ∧
      quant 0x3F800001#32 .rtz = ⟨32767, true, false⟩ ∧ quant 0xC0000000#32 .rne = ⟨-32767, true, false⟩ ∧
      quant 0x7FC00000#32 .rne = ⟨0, false, true⟩ ∧ quant 0x37800101#32 .rne = ⟨1, false, false⟩ := by decide +kernel

/-- V-QNT-52: the bytes and the flags of one QNT. -/
theorem test_qnt :
    ({ block with len := 3, fmem := cells 0 [0x3FC00000#32, 0x7FC00000#32, 0x3F000000#32] } : State).qntBytes
        = [0xFF#8, 0x7F#8, 0x00#8, 0x00#8, 0x00#8, 0x40#8] ∧
      ({ block with len := 3, fmem := cells 0 [0x3FC00000#32, 0x7FC00000#32, 0x3F000000#32] } : State).qntFlags
        = ⟨true, true, false, false⟩ := by decide +kernel

/-- V-DQT-2, 16, 20, 22: the smallest code, the middle, the top and the code QNT never writes. -/
theorem test_dequant :
    dequant 1 = 0x38000100#32 ∧ dequant (-16384) = 0xBF000100#32 ∧ dequant 32767 = 0x3F800000#32 ∧
      dequant (-32768) = 0xBF800100#32 := by decide +kernel

/-- V-DQT-33: two samples from an odd byte index. -/
theorem test_dqt :
    ({ block with src := 1, len := 2, blen := 5, bmem := cells 0 [0#8, 1#8, 2#8, 3#8, 4#8] } : State).dqtWords
      = [0x3C804101#32, 0x3D006101#32] := by decide +kernel

/-! The interleaver. -/

/-- V-ILV-1. -/
theorem test_mrg :
    ({ planarBlock with dst := 16, len := 3, nch := 2 } : State).mrgWords
      = [0x1000#32, 0x1003#32, 0x1001#32, 0x1004#32, 0x1002#32, 0x1005#32] := by decide

/-- V-ILV-15: T = 4294901760 is computed without wrap, and the overlap check comes first. -/
theorem test_mrg_overlap :
    exec .mrg { block with dst := 16, len := 65536, nch := 65535 }
      = .next { block with dst := 16, len := 65536, nch := 65535, err := some ⟨.invalidArgument, 0x03#8⟩ } := rfl

/-- V-ILV-22, its words as those of FMEM[0..5]: two full frames of three channels. -/
theorem test_sep :
    ({ planarBlock with dst := 16, len := 6, nch := 3 } : State).sepWords
      = [0x1000#32, 0x1003#32, 0x1001#32, 0x1004#32, 0x1002#32, 0x1005#32] := by decide

/-- V-ILV-25: one sample, two channels: nothing moves, SRC = DST is no overlap, REM is set. -/
theorem test_sep_remainder :
    exec .sep { block with src := 16, dst := 16, len := 1, nch := 2 }
      = .next { block with src := 16, dst := 16, len := 1, nch := 2, flags := ⟨false, false, false, true⟩ } := rfl

/-! The header unit. -/

/-- V-HDR-4: the largest header. -/
theorem test_hbld :
    ∃ t, exec .hbld { block with len := 2147483629#32, nch := 65535#16 } = .next t ∧
      t.hdr.fileSize = 0xFFFFFFFE#32 ∧ headerRegister t.hdr 6 = 0xFFFF#32 ∧ t.hdr.dataSize = 0xFFFFFFDA#32 :=
  ⟨_, rfl, by decide, by decide, by decide⟩

/-- V-HDR-5: one sample more is refused, and the header stays. -/
theorem test_hbld_too_long :
    exec .hbld { block with len := 2147483630#32, nch := 65535#16 }
      = .next { block with len := 2147483630#32, nch := 65535#16, err := some ⟨.invalidArgument, 0x05#8⟩ } := rfl

/-- V-HDR-8: the 44 bytes of build(6, 2). -/
theorem test_hpck_bytes :
    headerBytes (buildHeader 6 2) =
      [0x52#8, 0x49#8, 0x46#8, 0x46#8, 0x30#8, 0x00#8, 0x00#8, 0x00#8, 0x57#8, 0x41#8, 0x56#8, 0x45#8, 0x66#8, 0x6D#8]
        ++ [0x74#8, 0x20#8, 0x10#8, 0x00#8, 0x00#8, 0x00#8, 0x01#8, 0x00#8, 0x02#8, 0x00#8, 0x44#8, 0xAC#8, 0x00#8]
        ++ [0x00#8, 0x88#8, 0x58#8, 0x01#8, 0x00#8, 0x02#8, 0x00#8, 0x10#8, 0x00#8, 0x64#8, 0x61#8, 0x74#8, 0x61#8]
        ++ [0x0C#8, 0x00#8, 0x00#8, 0x00#8] := by decide

/-- V-HDR-11: HPCK one byte too high. -/
theorem test_hpck_fault :
    exec .hpck { block with dst := 213 } = .next { block with dst := 213, err := some ⟨.ioError, 0x06#8⟩ } := rfl

/-- V-HDR-14: only the length and the tags are checked. -/
theorem test_hupk :
    ∃ t, exec .hupk imageBlock = .next t ∧ t.hdr.fileSize = 0xFFFFFFFF#32 ∧ t.hdr.fmtSize = 18#32 ∧
      t.hdr.sampleRate = 16000#32 ∧ headerRegister t.hdr 9 = 1#32 ∧ t.hdr.dataSize = 5#32 :=
  ⟨_, rfl, by decide, by decide, by decide, by decide, by decide⟩

/-- V-HDR-16: a wrong first tag. -/
theorem test_hupk_bad_tag :
    exec .hupk { imageBlock with bmem := cells 0 (0x72#8 :: imageBytes.tail) }
      = .next { imageBlock with bmem := cells 0 (0x72#8 :: imageBytes.tail), err := some ⟨.formatError, 0x07#8⟩ } := rfl

/-- V-HDR-17: the largest data_size, which is odd. -/
theorem test_scnt :
    ∃ t, exec .scnt { block with hdr := { Header.zero with dataSize := 0xFFFFFFFF#32 } } = .next t ∧
      t.len = 0x7FFFFFFF#32 ∧ flagsWord t.flags = 4#32 := ⟨_, rfl, by decide, by decide⟩

/-! Witnesses: for each statement with hypotheses, concrete states and operands that meet all of them, at the boundary
values of its clauses. -/

/-- EveryPlacedAccessIsOneTarget: the largest capacities, with a placed access at each end of each space. -/
theorem witness_placed_access :
    (2 ^ 22 ≤ 2 ^ 22 ∧ 2 ^ 24 ≤ 2 ^ 24) ∧
      locate (2 ^ 22) (2 ^ 24) .word 0x00000FC#26 = some (.reg (.reserved 63)) ∧
      locate (2 ^ 22) (2 ^ 24) .word 0x1FFFFFC#26 = some (.fmem (2 ^ 22 - 1)) ∧
      locate (2 ^ 22) (2 ^ 24) .byte 0x2FFFFFF#26 = some (.bmem (2 ^ 24 - 1)) := by decide

/-- NopChangesNothing, its second clause, with a fault latched and without. -/
theorem witness_nop :
    (commandPending 0x00000000#32).nextIsCommand 0x00000000#32 [] ∧
      ({ commandPending 0x00000000#32 with err := some dqtFault } : State).nextIsCommand 0x00000000#32 [] := ⟨rfl, rfl⟩

/-- StepRunsTheDecodedCommand. -/
theorem witness_step_runs :
    (commandPending 0x00000003#32).nextIsCommand 0x00000003#32 [] ∧ (commandPending 0x00000003#32).err = none ∧
      decode 0x00000003#32 = .ok .mrg := ⟨rfl, rfl, rfl⟩

/-- CommandIsDroppedWhileLatched: a legal and an illegal word. -/
theorem witness_dropped :
    ({ commandPending 0x00000005#32 with err := some dqtFault } : State).nextIsCommand 0x00000005#32 [] ∧
      ({ commandPending 0x00000099#32 with err := some dqtFault } : State).nextIsCommand 0x00000099#32 [] ∧
      some dqtFault ≠ (none : Option FaultRecord) := ⟨rfl, rfl, by decide⟩

/-- IllegalCommandWordIsLatched: the first undefined opcode, and a lone reserved bit. -/
theorem witness_illegal :
    ((commandPending 0x00000009#32).nextIsCommand 0x00000009#32 [] ∧ (commandPending 0x00000009#32).err = none ∧
      ∀ i, 0x00000009#32 ≠ encode i) ∧
      ∀ i, 0x00000100#32 ≠ encode i := by
  refine ⟨⟨rfl, rfl, fun i => ?_⟩, fun i => ?_⟩ <;> cases i <;> decide

/-- IdleBlockKeepsItsState. -/
theorem witness_idle : State.reset.script = [] := rfl

/-- RegisterReadReturnsItsWord: each register of R25, and the ends of the two reserved ranges. -/
theorem witness_register_read : block.capacitiesOk ∧
    ∀ r ∈ [Reg.cmd, .err, .flags, .ctrl, .src, .dst, .len, .nch, .blen, .capf, .capb, .hdr 0, .hdr 5, .hdr 6, .hdr 9,
      .hdr 10, .hdr 12, .reserved 11, .reserved 15, .reserved 29, .reserved 63],
      r.wellFormed = true ∧
      (pending (.read .word (targetOffset (.reg r)))).script = .read .word (targetOffset (.reg r)) :: [] := by decide

/-- WriteErrClearsTheLatch, with a fault latched and without. -/
theorem witness_write_err :
    ({ pending (.write32 0x0000004#26 0xDEADBEEF#32) with err := some dqtFault } : State).script
        = .write32 0x0000004#26 0xDEADBEEF#32 :: [] ∧
      (pending (.write32 0x0000004#26 0#32)).script = .write32 0x0000004#26 0#32 :: [] ∧
      (pending (.write32 0x0000004#26 0#32)).err = none := ⟨rfl, rfl, rfl⟩

/-- WriteFlagsClearsWrittenOnes. -/
theorem witness_write_flags :
    (pending (.write32 0x0000008#26 0x5#32)).script = .write32 0x0000008#26 0x5#32 :: [] := rfl

/-- WriteBlenStoresTheMinimum: above NB and at it. -/
theorem witness_write_blen :
    (pending (.write32 0x0000020#26 300#32)).script = .write32 0x0000020#26 300#32 :: [] ∧
      (pending (.write32 0x0000020#26 256#32)).script = .write32 0x0000020#26 256#32 :: [] := ⟨rfl, rfl⟩

/-- WriteCtrlStoresTwoBits. -/
theorem witness_write_ctrl :
    (pending (.write32 0x000000C#26 0xFFFFFFFF#32)).script = .write32 0x000000C#26 0xFFFFFFFF#32 :: [] := rfl

/-- WriteOperandRegisterStoresIt: one state for each of the four registers. -/
theorem witness_write_operands :
    (pending (.write32 0x0000010#26 0xFFFFFFFF#32)).script = .write32 0x0000010#26 0xFFFFFFFF#32 :: [] ∧
      (pending (.write32 0x0000014#26 0#32)).script = .write32 0x0000014#26 0#32 :: [] ∧
      (pending (.write32 0x0000018#26 7#32)).script = .write32 0x0000018#26 7#32 :: [] ∧
      (pending (.write32 0x000001C#26 0x12345#32)).script = .write32 0x000001C#26 0x12345#32 :: [] :=
  ⟨rfl, rfl, rfl, rfl⟩

/-- ReadOnlyRegistersIgnoreWrites: the ends of CAPF to CAPB, of the reserved ranges and of HDR. -/
theorem witness_read_only :
    ∀ offset ∈ [0x24, 0x28, 0x2C, 0x3C, 0x40, 0x70, 0x74, 0xFC],
      offset % 4 = 0 ∧ 0x24 ≤ offset ∧ offset ≤ 0xFC ∧
        (pending (.write32 (BitVec.ofNat 26 offset) 1#32)).script
          = .write32 (BitVec.ofNat 26 offset) 1#32 :: [] := by decide

/-- MemoryTransactionsReachOneCell: the last cell of each memory, written and read. -/
theorem witness_memory_transactions : block.capacitiesOk ∧ 63 < block.capf ∧ 255 < block.capb ∧
    (pending (.write32 (BitVec.ofNat 26 (0x1000000 + 4 * 63)) 1#32)).script
      = .write32 (BitVec.ofNat 26 (0x1000000 + 4 * 63)) 1#32 :: [] ∧
    (pending (.read .word (BitVec.ofNat 26 (0x1000000 + 4 * 63)))).script
      = .read .word (BitVec.ofNat 26 (0x1000000 + 4 * 63)) :: [] ∧
    (pending (.write8 (BitVec.ofNat 26 (0x2000000 + 255)) 1#8)).script
      = .write8 (BitVec.ofNat 26 (0x2000000 + 255)) 1#8 :: [] ∧
    (pending (.read .byte (BitVec.ofNat 26 (0x2000000 + 255)))).script
      = .read .byte (BitVec.ofNat 26 (0x2000000 + 255)) :: [] :=
  ⟨by decide, by decide, by decide, rfl, rfl, rfl, rfl⟩

/-- BusErrorIsRefused: each kind of transaction, and offsets on both sides of each window's end. -/
theorem witness_bus_error : block.capacitiesOk ∧
    (pending (.read .word 0x0000100#26)).script = .read .word 0x0000100#26 :: [] ∧
    (pending (.write8 0x2000100#26 0#8)).script = .write8 0x2000100#26 0#8 :: [] ∧
    (pending (.write16 0x2000000#26 0#16)).script = .write16 0x2000000#26 0#16 :: [] ∧
    (pending (.write32 0x10000FC#26 0#32)).script = .write32 0x10000FC#26 0#32 :: [] ∧
    (pending (.write32 0x1000100#26 0#32)).script = .write32 0x1000100#26 0#32 :: [] ∧
    step (pending (.read .word 0x0000100#26)) = .refused .busError ∧
    (∃ t, step (pending (.read .word 0x00000FC#26)) = .next t) :=
  ⟨by decide, rfl, rfl, rfl, rfl, rfl, rfl, ⟨_, rfl⟩⟩

/-- RstPutsRegistersToReset. -/
theorem witness_rst : ({ pending .rst with err := some dqtFault, len := 7 } : State).script = .rst :: [] := rfl

/-- QntCompletesInRange: both ranges end exactly at the capacities (V-QNT-45), and LEN = 0 at the very end. -/
theorem witness_qnt :
    (block.capacitiesOk ∧ ({ block with dst := 128, len := 64 } : State).srcN + 64 ≤ 64 ∧
      ({ block with dst := 128, len := 64 } : State).dstN + 2 * 64 ≤ 256) ∧
      ({ block with src := 64, dst := 256 } : State).srcN + ({ block with src := 64, dst := 256 } : State).lenN ≤ 64 ∧
      ({ block with src := 64, dst := 256 } : State).dstN + 2 * ({ block with src := 64, dst := 256 } : State).lenN
        ≤ 256 := by decide

/-- DqtCompletesInRange: V-DQT-30. -/
theorem witness_dqt :
    ({ block with len := 64, blen := 128 } : State).srcN + 2 * ({ block with len := 64, blen := 128 } : State).lenN
        ≤ ({ block with len := 64, blen := 128 } : State).blenN ∧
      ({ block with len := 64, blen := 128 } : State).dstN + ({ block with len := 64, blen := 128 } : State).lenN
        ≤ block.capf := by decide

/-- A block on which MRG's ranges [0, 6) and [6, 12) touch (V-ILV-2). -/
def touching : State := { planarBlock with dst := 6, len := 3, nch := 2 }

/-- MrgCompletesOnDisjointRanges. -/
theorem witness_mrg :
    touching.nchN ≠ 0 ∧
      ¬ (0 < touching.nchN * touching.lenN ∧ touching.srcN < touching.dstN + touching.nchN * touching.lenN ∧
        touching.dstN < touching.srcN + touching.nchN * touching.lenN) ∧
      touching.srcN + touching.nchN * touching.lenN ≤ touching.capf ∧
      touching.dstN + touching.nchN * touching.lenN ≤ touching.capf := by decide

/-- A block on which SEP's ranges [0, 6) and [6, 12) touch (V-ILV-26). -/
def touchingSep : State := { planarBlock with dst := 6, len := 6, nch := 2 }

/-- SepCompletesOnDisjointRanges. -/
theorem witness_sep :
    touchingSep.nchN ≠ 0 ∧
      ¬ (0 < touchingSep.lenN ∧ 0 < touchingSep.nchN * (touchingSep.lenN / touchingSep.nchN) ∧
        touchingSep.srcN < touchingSep.dstN + touchingSep.nchN * (touchingSep.lenN / touchingSep.nchN) ∧
        touchingSep.dstN < touchingSep.srcN + touchingSep.lenN) ∧
      touchingSep.srcN + touchingSep.lenN ≤ touchingSep.capf ∧
      touchingSep.dstN + touchingSep.nchN * (touchingSep.lenN / touchingSep.nchN) ≤ touchingSep.capf := by decide

/-- HbldBuildsTheHeader, at the largest length (V-HDR-4). -/
theorem witness_hbld :
    ({ block with len := 2147483629, nch := 65535 } : State).nchN ≠ 0 ∧
      ({ block with len := 2147483629, nch := 65535 } : State).lenN ≤ 2147483629 := by decide

/-- HpckSerialisesTheHeader, at the last place where 44 bytes fit (V-HDR-10). -/
theorem witness_hpck :
    ({ block with dst := 212 } : State).capacitiesOk ∧ ({ block with dst := 212 } : State).dstN + 44 ≤ 256 := by decide

/-- HupkParsesTheHeader: a stream of exactly 44 bytes (V-HDR-14). -/
theorem witness_hupk :
    imageBlock.srcN + 44 ≤ imageBlock.blenN ∧
      imageBlock.memRead imageBlock.srcN 4 = 0x46464952 ∧ imageBlock.memRead (imageBlock.srcN + 8) 4 = 0x45564157 ∧
      imageBlock.memRead (imageBlock.srcN + 12) 4 = 0x20746D66 ∧
      imageBlock.memRead (imageBlock.srcN + 36) 4 = 0x61746164 := by decide

/-- EveryFaultIsOfTheTable, its second clause: a lone reserved bit, and the first undefined opcode. -/
theorem witness_illegal_word :
    block.err = none ∧ (0x00000100#32).extractLsb' 8 24 ≠ 0 ∧ 8 < ((0x00000009#32).extractLsb' 0 8).toNat := by decide

/-- Each check of the codec fails one index too far (V-QNT-44, V-QNT-46, V-DQT-31, V-DQT-37). -/
theorem test_codec_fault_rows :
    firstFault (faultRows { block with src := 65 } .qnt) = some .ioError ∧
      firstFault (faultRows { block with dst := 129, len := 64 } .qnt) = some .ioError ∧
      firstFault (faultRows { block with len := 64, blen := 127 } .dqt) = some .formatError ∧
      firstFault (faultRows { block with dst := 65 } .dqt) = some .ioError := by decide

/-- V-ILV-9, V-ILV-3, V-ILV-12, V-ILV-10: MRG without a channel, with one word shared, and leaving FMEM. -/
theorem test_mrg_fault_rows :
    firstFault (faultRows { block with len := 3 } .mrg) = some .invalidArgument ∧
      firstFault (faultRows { block with dst := 5, len := 3, nch := 2 } .mrg) = some .invalidArgument ∧
      firstFault (faultRows { block with src := 65, nch := 5 } .mrg) = some .ioError ∧
      firstFault (faultRows { block with dst := 40, len := 30, nch := 1 } .mrg) = some .ioError := by decide

/-- V-ILV-32, V-ILV-28, V-ILV-30, V-ILV-31: SEP without a channel, with the dropped word shared, and leaving FMEM. -/
theorem test_sep_fault_rows :
    firstFault (faultRows { block with len := 5 } .sep) = some .invalidArgument ∧
      firstFault (faultRows { block with dst := 6, len := 7, nch := 2 } .sep) = some .invalidArgument ∧
      firstFault (faultRows { block with src := 60, len := 5, nch := 2 } .sep) = some .ioError ∧
      firstFault (faultRows { block with dst := 60, len := 8, nch := 2 } .sep) = some .ioError := by decide

/-- V-HDR-7, V-HDR-5, V-HDR-11, V-HDR-16: the header unit's checks, and a header that passes them. -/
theorem test_header_fault_rows :
    firstFault (faultRows { block with len := 0xFFFFFFFF } .hbld) = some .invalidArgument ∧
      firstFault (faultRows { block with len := 2147483630, nch := 1 } .hbld) = some .invalidArgument ∧
      firstFault (faultRows { block with dst := 213 } .hpck) = some .ioError ∧
      firstFault (faultRows { imageBlock with blen := 43 } .hupk) = some .formatError ∧
      firstFault (faultRows { imageBlock with bmem := cells 0 (0x72#8 :: imageBytes.tail) } .hupk) = some .formatError ∧
      firstFault (faultRows imageBlock .hupk) = none := by decide

/-- FaultWritesErrOnly. -/
theorem witness_fault : block.err = none := rfl

/-- CommandsWriteOnlyTheirColumns, CommandsNeverClearAFlag, CommandsIgnoreTheHostSide: every command answers a next
state from the block. -/
theorem witness_commands (i : Instr) : ∃ t, exec i block = .next t := exec_next i block

/-- CommandsNeverLowerBlen: HPCK behind 100 bytes of stream. -/
theorem witness_blen :
    ({ block with blen := 100 } : State).capacitiesOk ∧
      ∃ t, exec .hpck { block with blen := 100 } = .next t := ⟨by decide, exec_next _ _⟩

/-- LatchHoldsUntilTheHostClearsIt: each of its three outcomes. -/
theorem witness_latch :
    (some dqtFault = some dqtFault ∧
      ∃ t, step { commandPending 0x00000005#32 with err := some dqtFault } = .next t ∧ t.err = some dqtFault) ∧
      (∃ t, step { pending (.write32 0x0000004#26 0#32) with err := some dqtFault } = .next t ∧ t.err = none) ∧
      (∃ t, step { pending .rst with err := some dqtFault } = .next t ∧ t.err = none) :=
  ⟨⟨rfl, _, rfl, rfl⟩, ⟨_, rfl, rfl⟩, ⟨_, rfl, rfl⟩⟩

/-- HeaderChangesOnlyByBuildParseOrReset: HBLD from reset, and rst from a built header. -/
theorem witness_header_changes :
    (∃ t, step { commandPending 0x00000005#32 with nch := 1 } = .next t ∧ t.hdr ≠ block.hdr) ∧
      ∃ t, step { pending .rst with hdr := buildHeader 2 1 } = .next t ∧ t.hdr ≠ buildHeader 2 1 :=
  ⟨⟨_, rfl, by decide⟩, ⟨_, rfl, by decide⟩⟩

/-- FlagsRiseOnlyByTheirCommand: ODD by SCNT and REM by SEP. -/
theorem witness_flags_rise :
    (∃ t, step { commandPending 0x00000008#32 with hdr := { Header.zero with dataSize := 5#32 } } = .next t ∧
        block.flags.odd = false ∧ t.flags.odd = true) ∧
      ∃ t, step { commandPending 0x00000004#32 with len := 1, nch := 2 } = .next t ∧
        block.flags.rem = false ∧ t.flags.rem = true :=
  ⟨⟨_, rfl, rfl, rfl⟩, ⟨_, rfl, rfl, rfl⟩⟩

/-- FlagsRiseOnlyByTheirCommand: SAT and NANF by QNT. -/
theorem witness_flags_rise_qnt :
    ∃ t, step { commandPending 0x00000001#32 with len := 2, fmem := cells 0 [0x3FC00000#32, 0x7FC00000#32] } = .next t ∧
      t.flags.sat = true ∧ t.flags.nanf = true :=
  ⟨_, rfl, by decide +kernel, by decide +kernel⟩

/-- StepKeepsTheInvariant: a legal state with a built header, a stream and a pending reset. -/
theorem witness_invariant :
    ({ pending .rst with hdr := buildHeader 2 1, blen := 256 } : State).Inv ∧
      ∃ t, step { pending .rst with hdr := buildHeader 2 1, blen := 256 } = .next t :=
  ⟨⟨by decide, by decide, ⟨Memory.wf_nil _, by decide⟩, ⟨Memory.wf_nil _, by decide⟩, .inr (buildHeader_tagsOk 2 1)⟩,
    _, rfl⟩

/-- RneIntIsNearestTiesToEven: at the tie 1/2 the integers 0 and 1 are equally near, and 0 is taken. -/
theorem witness_rne_tie : (1 : ℤ) ≠ rneInt (1 / 2) ∧ |(1 / 2 : ℚ) - (1 : ℤ)| = |(1 / 2 : ℚ) - rneInt (1 / 2)| := by
  have h : rneInt (1 / 2) = 0 := by unfold rneInt; norm_num
  rw [h]; norm_num

/-- QuantIsMonotone: 0 and 1. -/
theorem witness_monotone :
    isFinite 0x00000000#32 ∧ isFinite 0x3F800000#32 ∧ f32Val 0x00000000#32 ≤ f32Val 0x3F800000#32 := by
  have h1 : sampleExp 0x3F800000#32 = 127 ∧ sampleFrac 0x3F800000#32 = 0 ∧ sampleSign 0x3F800000#32 = false := by decide
  have h0 : sampleExp 0x00000000#32 = 0 ∧ sampleFrac 0x00000000#32 = 0 := by decide
  refine ⟨by decide, by decide, ?_⟩
  simp [f32Val, h1, h0, signFactor]

/-- PackAndUnpackAreInverse, DequantIsTheRoundedQuotient and DequantIsStrictlyMonotone: both ends of the range. -/
theorem witness_codes :
    ((-32768 : Int) ≤ -32768 ∧ (-32768 : Int) ≤ 32767) ∧ ((-32768 : Int) ≤ 32767 ∧ (32767 : Int) ≤ 32767) ∧
      ((-32768 : Int) ≤ -32768 ∧ (-32768 : Int) < -32767 ∧ (-32767 : Int) ≤ 32767) ∧
      ((-32768 : Int) ≤ 32766 ∧ (32766 : Int) < 32767 ∧ (32767 : Int) ≤ 32767) := by decide

/-- DequantThenQuantRneIsIdentity: both ends of the range. -/
theorem witness_symmetric_codes :
    ((-32767 : Int) ≤ -32767 ∧ (-32767 : Int) ≤ 32767) ∧ ((-32767 : Int) ≤ 32767 ∧ (32767 : Int) ≤ 32767) := by decide

/-- RoundTripErrorIsBelowOneStep: 1.0, the edge of [−1, 1]. -/
theorem witness_round_trip : isFinite 0x3F800000#32 ∧ |f32Val 0x3F800000#32| ≤ 1 := by
  have h1 : sampleExp 0x3F800000#32 = 127 ∧ sampleFrac 0x3F800000#32 = 0 ∧ sampleSign 0x3F800000#32 = false := by decide
  refine ⟨by decide, ?_⟩
  simp only [f32Val, h1, signFactor]
  norm_num

/-- SeparateAndMergeAreInverse, first clause: V-ILV-2 and back to FMEM[16..21]. -/
theorem witness_separate_after_merge :
    (6#32).toNat = touching.nchN * touching.lenN ∧ touching.err = none ∧
      exec .mrg touching = .next (touching.writeWords 6 touching.mrgWords) ∧
      (touching.writeWords 6 touching.mrgWords).err = none ∧
      ∃ u, exec .sep { touching.writeWords 6 touching.mrgWords with src := touching.dst, dst := 16, len := 6 } = .next u ∧
        u.err = none :=
  ⟨by decide, rfl, rfl, by simp [touching, planarBlock, block, State.reset], _, rfl, rfl⟩

/-- SeparateAndMergeAreInverse, second clause: V-ILV-26 and back to FMEM[16..21]. -/
theorem witness_merge_after_separate :
    (3#32).toNat = touchingSep.lenN / touchingSep.nchN ∧ touchingSep.err = none ∧
      exec .sep touchingSep = .next touchingSep.sepStore ∧ touchingSep.sepStore.err = none ∧
      ∃ u, exec .mrg { touchingSep.sepStore with src := touchingSep.dst, dst := 16, len := 3 } = .next u ∧
        u.err = none :=
  ⟨by decide, rfl, rfl, rfl, _, rfl, rfl⟩

/-- PackAndUnpackHeaderAreInverse, first clause: a built header at the last place where it fits. -/
theorem witness_unpack_after_pack :
    ({ block with dst := 212, hdr := buildHeader 6 2 } : State).capacitiesOk ∧ (buildHeader 6 2).tagsOk ∧
      ({ block with dst := 212, hdr := buildHeader 6 2 } : State).dstN + 44 ≤ 256 := by decide

/-- PackAndUnpackHeaderAreInverse, second clause: the image of V-HDR-14, packed again at 212. -/
theorem witness_pack_after_unpack :
    ({ imageBlock with dst := 212 } : State).err = none ∧
      (∃ t, exec .hupk { imageBlock with dst := 212 } = .next t ∧ t.err = none) ∧
      ({ imageBlock with dst := 212 } : State).dstN + 44 ≤ 256 := ⟨rfl, ⟨_, rfl, rfl⟩, by decide⟩

/-- WavWriteLeavesTheFile: `WAVWRITE 0, 64, 65535`, the most samples FMEM holds. -/
theorem witness_wav_write :
    block.capacitiesOk ∧ block.err = none ∧
      ({ block with script := expandLines (wavWriteLines 0 64 65535) } : State).script
        = expandLines (wavWriteLines 0 64 65535) ++ [] ∧
      1 ≤ (65535#32).toNat ∧ (65535#32).toNat < 2 ^ 16 ∧ (64#32).toNat ≤ 2147483629 ∧
      (0#32).toNat + (64#32).toNat ≤ block.capf ∧ 44 + 2 * (64#32).toNat ≤ block.capb :=
  ⟨by decide, rfl, rfl, by decide, by decide, by decide, by decide, by decide⟩

/-- WavReadReturnsTheSamples: `WAVREAD 62` of the image of V-HDR-14 with its two whole samples present (V-HDR-9). -/
theorem witness_wav_read :
    (({ imageBlock with blen := 48, script := expandLines (wavReadLines 62) } : State).err = none ∧
      ({ imageBlock with blen := 48, script := expandLines (wavReadLines 62) } : State).script
        = expandLines (wavReadLines 62) ++ []) ∧
      44 ≤ ({ imageBlock with blen := 48 } : State).blenN ∧
      (({ imageBlock with blen := 48 } : State).parseHeader 0).tagsOk ∧
      2 = ({ imageBlock with blen := 48 } : State).memRead 40 4 / 2 ∧
      44 + 2 * 2 ≤ ({ imageBlock with blen := 48 } : State).blenN ∧ (62#32).toNat + 2 ≤ block.capf :=
  ⟨⟨rfl, rfl⟩, by decide, by decide, by decide, by decide, by decide⟩

end Sys2Proof.Tests
end

section
/-! Legal states are kept: each operation of the block on a legal state gives a legal state, then a command, a host
event and a step. -/

namespace Sys2Proof.Machine

/-! What `State.Inv` does not speak of, and the header registers. -/

/-- Operands, flags, the latch, `CTRL` and the host's side of the port are free in a legal state. -/
theorem State.Inv.withFree {s : State} (hi : s.Inv) (src dst len : Word) (nch : Half) (flags : Flags)
    (err : Option FaultRecord) (ctrl : Ctrl) (script : List HostEvent) (returned : List Response) :
    ({ s with
        src := src, dst := dst, len := len, nch := nch, flags := flags, err := err, ctrl := ctrl,
        script := script, returned := returned } : State).Inv :=
  ⟨hi.capacities, hi.blenBound, hi.fmemForm, hi.bmemForm, hi.headerForm⟩

/-- A header with the four tags may stand in the header registers (R33, D41). -/
theorem State.Inv.withHdr {s : State} (hi : s.Inv) {h : Header} (ht : h.tagsOk) : ({ s with hdr := h } : State).Inv :=
  ⟨hi.capacities, hi.blenBound, hi.fmemForm, hi.bmemForm, .inr ht⟩

/-! `BLEN` never exceeds NB (R29). -/

/-- `BLEN` may hold any number up to NB. -/
theorem State.Inv.withBlen {s : State} (hi : s.Inv) {b : Word} (hb : b.toNat ≤ s.capb) :
    ({ s with blen := b } : State).Inv :=
  ⟨hi.capacities, hb, hi.fmemForm, hi.bmemForm, hi.headerForm⟩

/-- A number up to a bound is a word up to that bound. -/
theorem toNat_ofNat_le {n m : Nat} (h : n ≤ m) : (BitVec.ofNat 32 n).toNat ≤ m := by
  rw [BitVec.toNat_ofNat]
  exact (Nat.mod_le n _).trans h

/-- Raising `BLEN` to the end of a write inside BMEM stays within NB. -/
theorem State.Inv.raisedBlen_le {s : State} (hi : s.Inv) {last : Nat} (hl : last ≤ s.capb) :
    (s.raisedBlen last).toNat ≤ s.capb :=
  toNat_ofNat_le (Nat.max_le.2 ⟨hi.blenBound, hl⟩)

/-- A host write to `BLEN` saturates at NB (R145). -/
theorem State.Inv.writeBlen {s : State} (hi : s.Inv) (v : Word) : (s.writeBlen v).Inv :=
  hi.withBlen (toNat_ofNat_le (Nat.min_le_right _ _))

/-! The memories. -/

/-- A block write inside FMEM keeps a legal state legal (R35). -/
theorem State.Inv.writeWords {s : State} (hi : s.Inv) {a : Nat} {ws : List Word} (h : a + ws.length ≤ s.capf) :
    (s.writeWords a ws).Inv :=
  inv_of_fields hi (s.writeWords_capf a ws) (s.writeWords_capb a ws) (s.writeWords_epoch a ws)
    (by rw [State.blenN, State.writeWords_blen]; exact hi.blenBound)
    (s.fmem_writeWords_wf a s.capf ws hi.fmemForm h) (s.writeWords_bmem a ws ▸ hi.bmemForm)
    (s.writeWords_hdr a ws ▸ hi.headerForm)

/-- A block write inside BMEM keeps a legal state legal (R36). -/
theorem State.Inv.writeBytes {s : State} (hi : s.Inv) {a : Nat} {bs : List Byte} (h : a + bs.length ≤ s.capb) :
    (s.writeBytes a bs).Inv :=
  inv_of_fields hi (s.writeBytes_capf a bs) (s.writeBytes_capb a bs) (s.writeBytes_epoch a bs)
    (by rw [State.blenN, State.writeBytes_blen]; exact hi.blenBound)
    (s.writeBytes_fmem a bs ▸ hi.fmemForm) (s.bmem_writeBytes_wf a s.capb bs hi.bmemForm h)
    (s.writeBytes_hdr a bs ▸ hi.headerForm)

/-- One word written inside FMEM is a block of one. -/
theorem State.Inv.writeF {s : State} (hi : s.Inv) {i : Nat} (h : i < s.capf) (w : Word) : (s.writeF i w).Inv :=
  hi.writeWords (ws := [w]) h

/-- One byte written inside BMEM is a block of one. -/
theorem State.Inv.writeB {s : State} (hi : s.Inv) {j : Nat} (h : j < s.capb) (b : Byte) : (s.writeB j b).Inv :=
  hi.writeBytes (bs := [b]) h

/-- After `rst` both memories list nothing and every register is zero, so the capacities alone make it legal
(R41, R180). -/
theorem State.Inv.rst {s : State} (hi : s.Inv) : s.rst.Inv where
  capacities := hi.capacities
  blenBound := Nat.zero_le _
  fmemForm := ⟨Memory.wf_nil _, by simp⟩
  bmemForm := ⟨Memory.wf_nil _, by simp⟩
  headerForm := .inl rfl

/-! The stores of the commands. -/

/-- QNT's store: the bytes lie inside BMEM, and so does the new end of the stream. -/
theorem State.Inv.qntStore {s : State} (hi : s.Inv) (h : s.dstN + 2 * s.lenN ≤ s.capb) : s.qntStore.Inv := by
  have hw : (s.writeBytes s.dstN s.qntBytes).Inv := hi.writeBytes (by simpa using h)
  have hb : s.qntStore.blen.toNat ≤ (s.writeBytes s.dstN s.qntBytes).capb := by
    rw [State.writeBytes_capb, State.qntStore_blen]
    split
    · exact hi.raisedBlen_le h
    · exact hi.blenBound
  exact (hw.withBlen hb).withFree _ _ _ _ _ _ _ _ _

/-- HPCK's store: the 44 bytes lie inside BMEM, and so does the new end of the stream. -/
theorem State.Inv.hpckStore {s : State} (hi : s.Inv) (h : s.dstN + 44 ≤ s.capb) : s.hpckStore.Inv := by
  have hw : (s.writeBytes s.dstN (headerBytes s.hdr)).Inv := hi.writeBytes (by simpa using h)
  exact hw.withBlen (by rw [State.writeBytes_capb]; exact hi.raisedBlen_le h)

/-- SEP's store: the words lie inside FMEM. -/
theorem State.Inv.sepStore {s : State} (hi : s.Inv) (h : s.dstN + s.sepCount ≤ s.capf) : s.sepStore.Inv := by
  have hw : (s.writeWords s.dstN s.sepWords).Inv := hi.writeWords (by simpa using h)
  exact hw.withFree _ _ _ _ _ _ _ _ _

/-! Commands, host events and steps. -/

/-- Raising a fault writes `ERR` only, so the state stays legal (R165). -/
theorem State.Inv.raise {s : State} (hi : s.Inv) (c : ErrCode) (e : Byte) : (s.raise c e).Inv :=
  hi.withFree _ _ _ _ _ _ _ _ _

/-- A completed command keeps a legal state legal. -/
theorem Completed.inv {i : Instr} {s t : State} (h : Completed i s t) (hi : s.Inv) : t.Inv := by
  cases i
  case nop => obtain rfl := h; exact hi
  case qnt => obtain ⟨rfl, -, hd⟩ := h; exact hi.qntStore hd
  case dqt => obtain ⟨rfl, -, hd⟩ := h; exact hi.writeWords (by simpa using hd)
  case mrg => obtain ⟨rfl, -, -, -, hd⟩ := h; exact hi.writeWords (by simpa using hd)
  case sep => obtain ⟨rfl, -, -, -, hd⟩ := h; exact hi.sepStore hd
  case hbld => obtain ⟨rfl, -⟩ := h; exact hi.withHdr (buildHeader_tagsOk _ _)
  case hpck => obtain ⟨rfl, hd⟩ := h; exact hi.hpckStore hd
  case hupk => obtain ⟨rfl, -, ht⟩ := h; exact hi.withHdr ht
  case scnt => obtain rfl := h; exact hi.withFree _ _ _ _ _ _ _ _ _

/-- A command keeps a legal state legal, whether it faults or completes. -/
theorem exec_inv {i : Instr} {s t : State} (h : exec i s = .next t) (hi : s.Inv) : t.Inv := by
  rcases exec_cases h with ⟨c, rfl⟩ | hc
  · exact hi.raise c _
  · exact hc.inv hi

/-- A `CMD` write keeps a legal state legal: dropped, illegal or run (R141). -/
theorem command_inv {s t : State} {w : Word} (h : s.command w = .next t) (hi : s.Inv) : t.Inv := by
  rcases command_cases h with ⟨-, rfl⟩ | ⟨-, rfl, -⟩ | ⟨i, -, -, he⟩
  · exact hi
  · exact hi.raise _ _
  · exact exec_inv he hi

/-- A host event keeps a legal state legal. -/
theorem Performed.inv {s t : State} {e : HostEvent} (h : Performed s e t) (hi : s.Inv) : t.Inv := by
  cases h with
  | writeB _ j b hj => exact hi.writeB hj b
  | writeF _ i w hw => exact hi.writeF hw w
  | command w t hc => exact command_inv hc hi
  | blen v => exact hi.writeBlen v
  | ignored => exact hi
  | rst => exact hi.rst
  | read | clearErr | flags | ctrl | src | dst | len | nch => exact hi.withFree _ _ _ _ _ _ _ _ _

/-- Settles O39: a step does nothing or performs the next host event, and each host event keeps the legal states. -/
theorem stepKeepsTheInvariant : Obligations.StepKeepsTheInvariant := by
  intro s t hi h
  rcases step_cases h with ⟨-, rfl⟩ | ⟨e, rest, -, hp⟩
  · exact hi
  · exact hp.inv (hi.withFree _ _ _ _ _ _ _ rest _)

end Sys2Proof.Machine
end

section
/-! What a command writes, column by column of R40, and what follows for the flags, `BLEN`, the latch and the header
registers: first for a command, then for a host event and a step. -/

namespace Sys2Proof.Machine

/-! What a command leaves behind. -/

/-- R40 by columns: what each command can have written when it answers a next state, everything else as it was.
A new `BLEN` is the old one raised to an end inside BMEM. -/
inductive Wrote (s : State) : Instr → State → Prop where
  | fault (i c) : Wrote s i (s.raise c (commandOp (encode i)))
  | nop : Wrote s .nop s
  | qnt (m sat nan b) (hb : b = s.blen ∨ ∃ last ≤ s.capb, b = s.raisedBlen last) :
    Wrote s .qnt { s with bmem := m, flags := s.flags.addQnt sat nan, blen := b }
  | dqt (m) : Wrote s .dqt { s with fmem := m }
  | mrg (m) : Wrote s .mrg { s with fmem := m }
  | sep (m rem) : Wrote s .sep { s with fmem := m, flags := s.flags.addRem rem }
  | hbld (h) : Wrote s .hbld { s with hdr := h }
  | hpck (m last) (hl : last ≤ s.capb) : Wrote s .hpck { s with bmem := m, blen := s.raisedBlen last }
  | hupk (h) : Wrote s .hupk { s with hdr := h }
  | scnt (n odd) : Wrote s .scnt { s with len := n, flags := s.flags.addOdd odd }

/-- QNT's store as an update of `BMEM`, `FLAGS` and `BLEN`. -/
theorem State.qntStore_eq (s : State) :
    s.qntStore = { s with bmem := s.qntStore.bmem, flags := s.qntFlags, blen := s.qntStore.blen } := by
  rw [State.qntStore, s.writeBytes_eq]

/-- SEP's store as an update of `FMEM` and `FLAGS`. -/
theorem State.sepStore_eq (s : State) :
    s.sepStore = { s with fmem := s.sepStore.fmem, flags := s.sepStore.flags } := by
  rw [State.sepStore, s.writeWords_eq]

/-- HPCK's store as an update of `BMEM` and `BLEN`. -/
theorem State.hpckStore_eq (s : State) :
    s.hpckStore = { s with bmem := s.hpckStore.bmem, blen := s.hpckStore.blen } := by
  rw [State.hpckStore, s.writeBytes_eq]

/-- A completed command wrote its columns only. -/
theorem Completed.wrote {i : Instr} {s t : State} (h : Completed i s t) : Wrote s i t := by
  cases i
  case nop => obtain rfl := h; exact .nop
  case qnt =>
    obtain ⟨rfl, -, hd⟩ := h
    rw [State.qntStore_eq]
    refine .qnt _ _ _ _ ?_
    rw [State.qntStore_blen]
    split
    · exact .inr ⟨_, hd, rfl⟩
    · exact .inl rfl
  case dqt => obtain ⟨rfl, -⟩ := h; rw [State.writeWords_eq]; exact .dqt _
  case mrg => obtain ⟨rfl, -⟩ := h; rw [State.writeWords_eq]; exact .mrg _
  case sep => obtain ⟨rfl, -⟩ := h; rw [State.sepStore_eq]; exact .sep _ _
  case hbld => obtain ⟨rfl, -⟩ := h; exact .hbld _
  case hpck => obtain ⟨rfl, hd⟩ := h; rw [State.hpckStore_eq]; exact .hpck _ _ hd
  case hupk => obtain ⟨rfl, -⟩ := h; exact .hupk _
  case scnt => obtain rfl := h; exact .scnt _ _

/-- A command wrote its columns only, whether it faults or completes. -/
theorem exec_wrote {i : Instr} {s t : State} (h : exec i s = .next t) : Wrote s i t := by
  rcases exec_cases h with ⟨c, rfl⟩ | hc
  · exact .fault i c
  · exact hc.wrote

namespace Wrote

variable {i : Instr} {s t : State}

/-- The columns no command writes: the operands but `LEN`, `CTRL`, the capacities and the model's own fields. -/
theorem unwritten (h : Wrote s i t) :
    t.src = s.src ∧ t.dst = s.dst ∧ t.nch = s.nch ∧ t.ctrl = s.ctrl ∧ t.capf = s.capf ∧ t.capb = s.capb ∧
      t.epoch = s.epoch ∧ t.script = s.script ∧ t.returned = s.returned := by
  cases h <;> exact ⟨rfl, rfl, rfl, rfl, rfl, rfl, rfl, rfl, rfl⟩

/-! The other columns, each with the commands that write it. -/

theorem len_eq (h : Wrote s i t) (hi : i ≠ .scnt) : t.len = s.len := by
  cases h with
  | scnt => exact absurd rfl hi
  | _ => rfl

theorem sat_eq (h : Wrote s i t) (hi : i ≠ .qnt) : t.flags.sat = s.flags.sat := by
  cases h with
  | qnt => exact absurd rfl hi
  | _ => rfl

theorem nanf_eq (h : Wrote s i t) (hi : i ≠ .qnt) : t.flags.nanf = s.flags.nanf := by
  cases h with
  | qnt => exact absurd rfl hi
  | _ => rfl

theorem odd_eq (h : Wrote s i t) (hi : i ≠ .scnt) : t.flags.odd = s.flags.odd := by
  cases h with
  | scnt => exact absurd rfl hi
  | _ => rfl

theorem rem_eq (h : Wrote s i t) (hi : i ≠ .sep) : t.flags.rem = s.flags.rem := by
  cases h with
  | sep => exact absurd rfl hi
  | _ => rfl

theorem blen_bmem_eq (h : Wrote s i t) (hq : i ≠ .qnt) (hp : i ≠ .hpck) : t.blen = s.blen ∧ t.bmem = s.bmem := by
  cases h with
  | qnt => exact absurd rfl hq
  | hpck => exact absurd rfl hp
  | _ => exact ⟨rfl, rfl⟩

theorem hdr_eq (h : Wrote s i t) (hb : i ≠ .hbld) (hu : i ≠ .hupk) : t.hdr = s.hdr := by
  cases h with
  | hbld => exact absurd rfl hb
  | hupk => exact absurd rfl hu
  | _ => rfl

theorem fmem_eq (h : Wrote s i t) (hd : i ≠ .dqt) (hm : i ≠ .mrg) (hs : i ≠ .sep) : t.fmem = s.fmem := by
  cases h with
  | dqt => exact absurd rfl hd
  | mrg => exact absurd rfl hm
  | sep => exact absurd rfl hs
  | _ => rfl

end Wrote

/-- Settles O31: each clause is a column of `Wrote`. -/
theorem commandsWriteOnlyTheirColumns : Obligations.CommandsWriteOnlyTheirColumns := by
  intro i s t h
  have hw := exec_wrote h
  obtain ⟨hsrc, hdst, hnch, hctrl, hcapf, hcapb, hepoch, hscript, hreturned⟩ := hw.unwritten
  refine ⟨hsrc, hdst, hnch, hctrl, hcapf, hcapb, hepoch, hscript, hreturned, hw.len_eq,
    fun hq => ⟨hw.sat_eq hq, hw.nanf_eq hq⟩, hw.odd_eq, hw.rem_eq, fun hq hp => ?_, hw.hdr_eq,
    fun hd hm hs => State.readF_congr (hw.fmem_eq hd hm hs) hepoch⟩
  obtain ⟨hblen, hbmem⟩ := hw.blen_bmem_eq hq hp
  exact ⟨hblen, State.readB_congr hbmem hepoch⟩

/-! Flags only rise under a command (R24, R185). -/

/-- Every flag set in `f` is set in `g`. -/
def Flags.Le (f g : Flags) : Prop :=
  (f.sat = true → g.sat = true) ∧ (f.nanf = true → g.nanf = true) ∧
    (f.odd = true → g.odd = true) ∧ (f.rem = true → g.rem = true)

theorem Flags.Le.refl (f : Flags) : f.Le f := ⟨id, id, id, id⟩

theorem Flags.le_addQnt (f : Flags) (sat nan : Bool) : f.Le (f.addQnt sat nan) :=
  ⟨fun h => by simp [Flags.addQnt, h], fun h => by simp [Flags.addQnt, h], id, id⟩

theorem Flags.le_addOdd (f : Flags) (odd : Bool) : f.Le (f.addOdd odd) :=
  ⟨id, id, fun h => by simp [Flags.addOdd, h], id⟩

theorem Flags.le_addRem (f : Flags) (rem : Bool) : f.Le (f.addRem rem) :=
  ⟨id, id, id, fun h => by simp [Flags.addRem, h]⟩

/-- W1C sets no flag (R144). -/
theorem Flags.w1c_le (f : Flags) (v : Word) : (f.w1c v).Le f :=
  ⟨Bool.and_elim_left, Bool.and_elim_left, Bool.and_elim_left, Bool.and_elim_left⟩

/-- A command clears no flag. -/
theorem Wrote.flags_le {i : Instr} {s t : State} (h : Wrote s i t) : s.flags.Le t.flags := by
  cases h with
  | qnt => exact Flags.le_addQnt _ _ _
  | sep => exact Flags.le_addRem _ _
  | scnt => exact Flags.le_addOdd _ _
  | _ => exact Flags.Le.refl _

/-- Settles O32: the three commands that write `FLAGS` only add to it. -/
theorem commandsNeverClearAFlag : Obligations.CommandsNeverClearAFlag :=
  fun _ _ _ h => (exec_wrote h).flags_le

/-! `BLEN` only rises under a command (R29, R186). -/

/-- Raising `BLEN` to an end inside BMEM does not lower it: the number is not cut, NB being at most 2^24. -/
theorem State.blenN_le_raisedBlen {s : State} {last : Nat} (hc : s.capacitiesOk) (hl : last ≤ s.capb) :
    s.blenN ≤ (s.raisedBlen last).toNat := by
  obtain ⟨-, -, -, hcap⟩ := hc
  have hb : s.blenN < 2 ^ 32 := s.blen.isLt
  rw [State.raisedBlen, BitVec.toNat_ofNat, Nat.mod_eq_of_lt (by omega)]
  exact Nat.le_max_left _ _

/-- Settles O33: QNT and HPCK raise `BLEN` to an end inside BMEM or leave it, the others leave it. -/
theorem commandsNeverLowerBlen : Obligations.CommandsNeverLowerBlen := by
  intro i s t hc h
  cases exec_wrote h with
  | qnt _ _ _ _ hb =>
    rcases hb with rfl | ⟨last, hl, rfl⟩
    · exact Nat.le_refl _
    · exact State.blenN_le_raisedBlen hc hl
  | hpck _ _ hl => exact State.blenN_le_raisedBlen hc hl
  | _ => exact Nat.le_refl _

end Sys2Proof.Machine
end

section
/-! The host's side of the port neither steers a command nor is changed by it (R37). -/

namespace Sys2Proof.Machine

/-- The block with other pending host events and other returned data (log entries 4 and 5). -/
def State.withHost (s : State) (events : List HostEvent) (data : List Response) : State :=
  { s with script := events, returned := data }

/-- An outcome with its next state changed; what stops stays as it is. -/
def mapNext (f : State → State) : Host.Outcome State Fault Refusal → Host.Outcome State Fault Refusal
  | .next t => .next (f t)
  | .fault r => .fault r
  | .refused r => .refused r

section CommutesWithHost

variable (s : State) (events : List HostEvent) (data : List Response)

/-! Each write and each read commutes with, or ignores, the host's side. -/

theorem State.writeWords_withHost (a : Nat) (ws : List Word) :
    (s.withHost events data).writeWords a ws = (s.writeWords a ws).withHost events data := by
  induction ws generalizing s a with
  | nil => rfl
  | cons w ws ih => exact ih (s.writeF a w) (a + 1)

theorem State.writeBytes_withHost (a : Nat) (bs : List Byte) :
    (s.withHost events data).writeBytes a bs = (s.writeBytes a bs).withHost events data := by
  induction bs generalizing s a with
  | nil => rfl
  | cons b bs ih => exact ih (s.writeB a b) (a + 1)

theorem State.parseHeader_withHost (a : Nat) : (s.withHost events data).parseHeader a = s.parseHeader a := by
  have hm (b n : Nat) : (s.withHost events data).memRead b n = s.memRead b n := State.memRead_congr fun _ _ => rfl
  simp only [State.parseHeader, State.readField32, State.readField16, hm]

theorem State.qntStore_withHost : (s.withHost events data).qntStore = s.qntStore.withHost events data := by
  rw [State.qntStore, State.writeBytes_withHost]
  rfl

theorem State.sepStore_withHost : (s.withHost events data).sepStore = s.sepStore.withHost events data := by
  rw [State.sepStore, State.writeWords_withHost]
  rfl

theorem State.hpckStore_withHost : (s.withHost events data).hpckStore = s.hpckStore.withHost events data := by
  rw [State.hpckStore, State.writeBytes_withHost]
  rfl

/-- A command run with another host side gives the same outcome with that host side: its checks and what it writes
read the block's own state only. -/
theorem exec_withHost (i : Instr) :
    exec i (s.withHost events data) = mapNext (State.withHost · events data) (exec i s) := by
  cases i
  case nop | scnt => rfl
  case qnt | dqt | mrg | sep | hbld | hpck | hupk =>
    simp only [exec, execQnt, execDqt, execMrg, execSep, execHbld, execHpck, execHupk, apply_ite (mapNext _),
      State.qntStore_withHost, State.writeWords_withHost, State.sepStore_withHost, State.hpckStore_withHost,
      State.parseHeader_withHost]
    rfl

end CommutesWithHost

/-- Settles O34: running the command commutes with replacing the host's side. -/
theorem commandsIgnoreTheHostSide : Obligations.CommandsIgnoreTheHostSide := by
  intro i s t events data h
  calc exec i (s.withHost events data)
      = mapNext (State.withHost · events data) (exec i s) := exec_withHost s events data i
    _ = .next (t.withHost events data) := by rw [h]; rfl

end Sys2Proof.Machine
end

section
/-! What each step leaves alone: the latch, the header registers and the flags. -/

namespace Sys2Proof.Machine

/-- While a fault is latched an event leaves `ERR` as it was, unless it is a write to `ERR` or `rst`: a `CMD` write is
dropped (R166). -/
theorem Performed.err_of_latched {s t : State} {e : HostEvent} {r : FaultRecord} (h : Performed s e t)
    (hr : s.err = some r) :
    t.err = some r ∨ (∃ v, e = .write32 0x0000004#26 v ∧ t.err = none) ∨ (e = .rst ∧ t.err = none) := by
  cases h with
  | command w t hc =>
    rcases command_cases hc with ⟨-, rfl⟩ | ⟨hn, -⟩ | ⟨_, hn, -⟩
    · exact .inl hr
    · simp [hr] at hn
    · simp [hr] at hn
  | clearErr v => exact .inr (.inl ⟨v, rfl, rfl⟩)
  | rst => exact .inr (.inr ⟨rfl, rfl⟩)
  | _ => exact .inl hr

/-- Settles O35: only the write to `ERR` and `rst` change a latched fault. -/
theorem latchHoldsUntilTheHostClearsIt : Obligations.LatchHoldsUntilTheHostClearsIt := by
  intro s t r hr h
  rcases step_cases h with ⟨-, rfl⟩ | ⟨e, rest, hs, hp⟩
  · exact .inl hr
  · rcases hp.err_of_latched hr with ht | ⟨v, rfl, ht⟩ | ⟨rfl, ht⟩
    · exact .inl ht
    · exact .inr (.inl ⟨v, rest, hs, ht⟩)
    · exact .inr (.inr ⟨rest, hs, ht⟩)

/-- An event that runs no command sets no flag, and leaves the header registers as they were unless it is `rst`. -/
theorem Performed.ran_or_kept {s t : State} {e : HostEvent} (h : Performed s e t) :
    (∃ i, e = .write32 cmdOffset (encode i) ∧ exec i s = .next t) ∨
      (t.flags.Le s.flags ∧ (t.hdr = s.hdr ∨ e = .rst)) := by
  cases h with
  | command w t hc =>
    rcases command_cases hc with ⟨-, rfl⟩ | ⟨-, rfl, -⟩ | ⟨i, -, rfl, hx⟩
    · exact .inr ⟨.refl _, .inl rfl⟩
    · exact .inr ⟨.refl _, .inl rfl⟩
    · exact .inl ⟨i, rfl, hx⟩
  | flags v => exact .inr ⟨s.flags.w1c_le v, .inl rfl⟩
  | rst => exact .inr ⟨by simp [Flags.Le], .inr rfl⟩
  | _ => exact .inr ⟨.refl _, .inl rfl⟩

/-- A step runs a command from its `CMD` write, or sets no flag and leaves the header registers as they were unless it
performs `rst`. -/
theorem step_ran_or_kept {s t : State} (h : step s = .next t) :
    (∃ i rest, s.nextIsCommand (encode i) rest ∧ exec i { s with script := rest } = .next t) ∨
      (t.flags.Le s.flags ∧ (t.hdr = s.hdr ∨ ∃ rest, s.script = .rst :: rest)) := by
  rcases step_cases h with ⟨-, rfl⟩ | ⟨e, rest, hs, hp⟩
  · exact .inr ⟨.refl _, .inl rfl⟩
  · rcases hp.ran_or_kept with ⟨i, rfl, hx⟩ | ⟨hf, hh | rfl⟩
    · exact .inl ⟨i, rest, hs, hx⟩
    · exact .inr ⟨hf, .inl hh⟩
    · exact .inr ⟨hf, .inr ⟨rest, hs⟩⟩

/-- Settles O36: of the commands only HBLD and HUPK write the header registers, and of the other events only `rst`. -/
theorem headerChangesOnlyByBuildParseOrReset : Obligations.HeaderChangesOnlyByBuildParseOrReset := by
  intro s t h hne
  rcases step_ran_or_kept h with ⟨i, rest, hs, hx⟩ | ⟨-, heq | hrst⟩
  · by_cases hb : i = .hbld
    · subst hb; exact .inl ⟨rest, hs⟩
    · by_cases hu : i = .hupk
      · subst hu; exact .inr (.inl ⟨rest, hs⟩)
      · exact absurd ((exec_wrote hx).hdr_eq hb hu) hne
  · exact absurd heq hne
  · exact .inr (.inr hrst)

/-- A bit that only the command `j` writes and that rises under the pending command tells that this command is `j`. -/
theorem nextIsCommand_of_rise {s : State} {i j : Instr} {rest : List HostEvent} {b b' : Bool}
    (hs : s.nextIsCommand (encode i) rest) (keep : i ≠ j → b' = b) (h0 : b = false) (h1 : b' = true) :
    ∃ rest, s.nextIsCommand (encode j) rest := by
  have hij : i = j := by
    by_contra hij
    have heq := keep hij
    simp [h0, h1] at heq
  exact ⟨rest, hij ▸ hs⟩

/-- Settles O37: without a command no flag rises, and under a command only its own flags do. -/
theorem flagsRiseOnlyByTheirCommand : Obligations.FlagsRiseOnlyByTheirCommand := by
  intro s t h
  rcases step_ran_or_kept h with ⟨i, rest, hs, hx⟩ | ⟨⟨hsat, hnanf, hodd, hrem⟩, -⟩
  · have hw := exec_wrote hx
    exact ⟨nextIsCommand_of_rise (j := .qnt) hs hw.sat_eq, nextIsCommand_of_rise (j := .qnt) hs hw.nanf_eq,
      nextIsCommand_of_rise (j := .scnt) hs hw.odd_eq, nextIsCommand_of_rise (j := .sep) hs hw.rem_eq⟩
  · have no_rise {b b' : Bool} {p : Prop} (le : b' = true → b = true) (h0 : b = false) (h1 : b' = true) : p := by
      simp [h0, h1] at le
    exact ⟨no_rise hsat, no_rise hnanf, no_rise hodd, no_rise hrem⟩

end Sys2Proof.Machine
end

section
/-! `ERR` and `irq`, the writes to operand and read-only registers, and the power-up state. -/

namespace Sys2Proof.Machine

/-! `ERR` and `irq` (R27, R38). -/

/-- Every fault kind has a number from 1 to 4 (R160). -/
theorem errCodeNumber_bounds (c : ErrCode) : 1 ≤ errCodeNumber c ∧ errCodeNumber c ≤ 4 := by
  cases c <;> decide

/-- `ERR` after a fault: the number of its kind, and the opcode byte above. -/
theorem State.errWord_raise (s : State) (c : ErrCode) (op : Byte) :
    (s.raise c op).errWord.toNat = errCodeNumber c + 256 * op.toNat := by
  have hc := errCodeNumber_bounds c
  have hop := op.isLt
  have hw : (s.raise c op).errWord = BitVec.ofNat 32 (errCodeNumber c + 256 * op.toNat) := rfl
  rw [hw, BitVec.toNat_ofNat, Nat.mod_eq_of_lt (by omega)]

/-- Settles O9: the four numbers of `ERR.CODE` under the one shape of `ERR`. -/
theorem errReadsCodeAndOpcode : Obligations.ErrReadsCodeAndOpcode :=
  fun s op => ⟨s.errWord_raise .invalidArgument op, s.errWord_raise .formatError op, s.errWord_raise .ioError op,
    s.errWord_raise .illegalCommand op, rfl⟩

/-- `ERR.CODE` tells whether a fault is latched. -/
theorem State.errCode_ne_zero_iff (s : State) : s.errCode ≠ 0 ↔ s.err.isSome = true := by
  unfold State.errCode
  split
  · next hn => simp [hn]
  · next r hr => simp [hr, Nat.ne_of_gt (errCodeNumber_bounds r.code).1]

/-- Settles O38: `irq` is the latch and the enable. -/
theorem irqIsTheEnabledLatch : Obligations.IrqIsTheEnabledLatch := by
  intro s
  rw [State.errCode_ne_zero_iff, State.irq, Bool.and_eq_true]

/-! Writes to the operand registers and to the read-only ones (R142). -/

/-- Settles O14: the address decoder places each of the four offsets at its register, whose write stores the data. -/
theorem writeOperandRegisterStoresIt : Obligations.WriteOperandRegisterStoresIt :=
  fun _ _ _ => ⟨fun h => (step_cons h).trans rfl, fun h => (step_cons h).trans rfl, fun h => (step_cons h).trans rfl,
    fun h => ⟨_, (step_cons h).trans rfl, rfl, BitVec.extractLsb'_toNat ..⟩⟩

/-- The registers whose write can change the block (R142). -/
def writableRegs : List Reg := [.cmd, .err, .flags, .ctrl, .src, .dst, .len, .nch, .blen]

/-- A write to any other register is ignored. -/
theorem State.regWrite_of_not_writable (s : State) {r : Reg} (h : r ∉ writableRegs) (v : Word) :
    s.regWrite r v = .next s := by
  cases r with
  | capf | capb | hdr | reserved => rfl
  | _ => simp [writableRegs] at h

/-- From slot 9 on, offset 0x24, no register is writable (R25). -/
theorem regOfSlot_not_writable : ∀ slot : Fin 64, 9 ≤ slot.val → regOfSlot slot ∉ writableRegs := by decide

/-- A word write at a slot of the REG space is a write to its register. -/
theorem perform_write_reg (s : State) (v : Word) {offset : Offset} {slot : Fin 64} (h : offset.toNat = 4 * slot.val) :
    perform (.write32 offset v) s = s.regWrite (regOfSlot slot) v := by
  simp only [perform, locate_reg slot h]

/-- Settles O15: every such offset is that of a slot from 9 on, whose register ignores the write. -/
theorem readOnlyRegistersIgnoreWrites : Obligations.ReadOnlyRegistersIgnoreWrites := by
  intro s v offset rest hmod hlow hhigh hs
  obtain ⟨slot, rfl⟩ : ∃ slot : Fin 64, offset = 4 * slot.val := ⟨⟨offset / 4, by omega⟩, by simp only; omega⟩
  have hoff : (BitVec.ofNat 26 (4 * slot.val)).toNat = 4 * slot.val := by
    rw [BitVec.toNat_ofNat, Nat.mod_eq_of_lt (by omega)]
  rw [step_cons hs, perform_write_reg _ v hoff]
  exact State.regWrite_of_not_writable _ (regOfSlot_not_writable slot (by omega)) v

/-! The power-up state (R41). -/

/-- A header of zeros reads as zero in every register. -/
theorem headerRegister_zero : ∀ k : Fin 13, headerRegister Header.zero k = 0 := by decide

/-- Settles O19: the fields of `State.reset`; no memory cell is listed, so each reads as its free value. -/
theorem resetStateHoldsTheResetValues : Obligations.ResetStateHoldsTheResetValues :=
  ⟨rfl, rfl, rfl, rfl, rfl, rfl, rfl, rfl, rfl, rfl, headerRegister_zero, rfl, rfl, rfl, fun _ => rfl, fun _ => rfl⟩

/-- NF and NB lie in the ranges of R6, whatever the implementation chose. -/
theorem State.reset_capacitiesOk : State.reset.capacitiesOk := by
  have hf := Config.nfLessOne.isLt
  have hb := Config.nbLess44.isLt
  simp only [State.capacitiesOk, State.reset, Config.nf, Config.nb]
  omega

/-- Settles O40: the capacities are in range, the memories list nothing, and `BLEN` and the header registers are zero. -/
theorem resetStateIsLegal : Obligations.ResetStateIsLegal where
  capacities := State.reset_capacitiesOk
  blenBound := Nat.zero_le _
  fmemForm := ⟨Memory.wf_nil _, fun _ h => absurd h List.not_mem_nil⟩
  bmemForm := ⟨Memory.wf_nil _, fun _ h => absurd h List.not_mem_nil⟩
  headerForm := .inl rfl

end Sys2Proof.Machine
end

section
/-! The host's accesses: the address decoder and the notation's offsets are inverse, and a transaction is refused
exactly when the decoder places it nowhere (R50 to R54). -/

namespace Sys2Proof.Machine

/-! The address decoder against the notation's offsets (R50 to R53, R75). -/

/-- An offset given by a number that fits its 26 bits. -/
theorem offset_eq_ofNat_iff {offset : Offset} {n : Nat} (hn : n < 2 ^ 26) :
    offset = BitVec.ofNat 26 n ↔ offset.toNat = n := by
  rw [← BitVec.toNat_inj, BitVec.toNat_ofNat, Nat.mod_eq_of_lt hn]

/-- Every register that exists has a slot, and its offset is the slot's (R25). -/
theorem exists_slot {r : Reg} (h : r.wellFormed = true) :
    ∃ slot : Fin 64, regOfSlot slot = r ∧ regOffset r = 4 * slot.val := by
  have hr := regOfSlot_regOffset r h
  refine ⟨_, hr, ?_⟩
  conv_lhs => rw [← hr]
  exact (regOffset_regOfSlot _).1

section
variable {capf capb : Nat} {width : AccessWidth} {offset : Offset} {t : Target}

/-- Where an access is placed there is a target, of that width and at that offset. -/
theorem target_of_locate (h : locate capf capb width offset = some t) :
    t.wellFormed capf capb = true ∧ width = targetWidth t ∧ offset = targetOffset t := by
  rcases locate_eq_some _ _ _ _ _ h with ⟨slot, rfl, ho, hw⟩ | ⟨i, rfl, hi, ho, hw⟩ | ⟨j, rfl, hj, ho, hw⟩
  · obtain ⟨hoff, hwf⟩ := regOffset_regOfSlot slot
    have hslot := slot.isLt
    exact ⟨hwf, hw, (offset_eq_ofNat_iff (by omega)).2 (ho.trans hoff.symm)⟩
  · exact ⟨decide_eq_true hi, hw, (offset_eq_ofNat_iff (by omega)).2 ho⟩
  · exact ⟨decide_eq_true hj, hw, (offset_eq_ofNat_iff (by omega)).2 ho⟩

/-- An access of a target's width at its offset is placed at it. -/
theorem locate_targetOffset (hf : capf ≤ 2 ^ 22) (hb : capb ≤ 2 ^ 24) (h : t.wellFormed capf capb = true) :
    locate capf capb (targetWidth t) (targetOffset t) = some t := by
  cases t with
  | reg r =>
    obtain ⟨slot, rfl, hoff⟩ := exists_slot h
    have hslot := slot.isLt
    exact locate_reg slot (((offset_eq_ofNat_iff (by omega)).1 rfl).trans hoff)
  | fmem i =>
    have hi : i < capf := of_decide_eq_true h
    exact locate_fmem hf hi ((offset_eq_ofNat_iff (by omega)).1 rfl)
  | bmem j =>
    have hj : j < capb := of_decide_eq_true h
    exact locate_bmem hb hj ((offset_eq_ofNat_iff (by omega)).1 rfl)

end

/-- Settles O3: the decoder undoes the encoder at every target, and places nothing else. -/
theorem everyPlacedAccessIsOneTarget : Obligations.EveryPlacedAccessIsOneTarget := by
  intro capf capb width offset t hf hb
  refine ⟨fun h => target_of_locate h, ?_⟩
  rintro ⟨hwf, rfl, rfl⟩
  exact locate_targetOffset hf hb hwf

/-! Bus errors (R54). -/

/-- The aligned words of REG and of FMEM and the bytes of BMEM: the accesses that are no bus error (R50 to R54). -/
abbrev InWindow (capf capb : Nat) (width : AccessWidth) (offset : Offset) : Prop :=
  (offset.toNat ≤ 0xFF ∧ offset.toNat % 4 = 0 ∧ width = .word) ∨
    (0x1000000 ≤ offset.toNat ∧ offset.toNat < 0x1000000 + 4 * capf ∧ offset.toNat % 4 = 0 ∧ width = .word) ∨
    (0x2000000 ≤ offset.toNat ∧ offset.toNat < 0x2000000 + capb ∧ width = .byte)

/-- The decoder places exactly the accesses inside the windows. -/
theorem locate_isSome_iff {capf capb : Nat} {width : AccessWidth} {offset : Offset} (hf : capf ≤ 2 ^ 22)
    (hb : capb ≤ 2 ^ 24) : (∃ t, locate capf capb width offset = some t) ↔ InWindow capf capb width offset := by
  constructor
  · rintro ⟨t, h⟩
    rcases locate_eq_some _ _ _ _ _ h with ⟨slot, -, ho, hw⟩ | ⟨i, -, hi, ho, hw⟩ | ⟨j, -, hj, ho, hw⟩
    · exact .inl ⟨by omega, by omega, hw⟩
    · exact .inr (.inl ⟨by omega, by omega, by omega, hw⟩)
    · exact .inr (.inr ⟨by omega, by omega, hw⟩)
  · rintro (⟨hlast, hal, rfl⟩ | ⟨hfirst, hlast, hal, rfl⟩ | ⟨hfirst, hlast, rfl⟩)
    · exact ⟨_, locate_reg ⟨offset.toNat / 4, by omega⟩ (by simp only; omega)⟩
    · exact ⟨_, locate_fmem (i := (offset.toNat - 0x1000000) / 4) hf (by omega) (by omega)⟩
    · exact ⟨_, locate_bmem (j := offset.toNat - 0x2000000) hb (by omega) (by omega)⟩

/-- The width and the offset of a transaction; `rst` is none. -/
def accessOf : HostEvent → Option (AccessWidth × Offset)
  | .read width offset => some (width, offset)
  | .write8 offset _ => some (.byte, offset)
  | .write16 offset _ => some (.half, offset)
  | .write32 offset _ => some (.word, offset)
  | .rst => none

/-- A command write always gives a next state. -/
theorem State.command_next (s : State) (w : Word) : ∃ t, s.command w = .next t := by
  unfold State.command
  split
  · exact ⟨_, rfl⟩
  · split
    · exact ⟨_, rfl⟩
    · exact exec_next _ s

/-- A register write always gives a next state. -/
theorem State.regWrite_next (s : State) (r : Reg) (v : Word) : ∃ t, s.regWrite r v = .next t := by
  cases r with
  | cmd => exact s.command_next v
  | _ => exact ⟨_, rfl⟩

section
variable {s : State} {e : HostEvent} {width : AccessWidth} {offset : Offset}

/-- A transaction the decoder places gives a next state. -/
theorem perform_next_of_placed {t : Target} (he : accessOf e = some (width, offset))
    (h : locate s.capf s.capb width offset = some t) (hw : width = targetWidth t) : ∃ s', perform e s = .next s' := by
  cases e with
  | read => cases he; simp only [perform, h]; exact ⟨_, rfl⟩
  | write8 =>
    cases he
    cases t with
    | bmem j => simp only [perform, h]; exact ⟨_, rfl⟩
    | reg | fmem => cases hw
  | write16 => cases he; cases t <;> cases hw
  | write32 =>
    cases he
    cases t with
    | reg r => simp only [perform, h]; exact s.regWrite_next r _
    | fmem i => simp only [perform, h]; exact ⟨_, rfl⟩
    | bmem => cases hw
  | rst => cases he

/-- A transaction the decoder places nowhere is refused (R54). -/
theorem perform_refused_of_not_placed (he : accessOf e = some (width, offset))
    (h : locate s.capf s.capb width offset = none) : perform e s = .refused .busError := by
  cases e with
  | rst => cases he
  | write16 => rfl
  | _ => cases he; simp only [perform, h]

end

/-- Settles O17: the windows are where the decoder places an access, and `perform` refuses exactly what it does not
place. -/
theorem busErrorIsRefused : Obligations.BusErrorIsRefused := by
  intro s e width offset rest hc hs he
  obtain ⟨-, hf, -, hb⟩ := hc
  have hacc : accessOf e = some (width, offset) := by
    rcases he with rfl | ⟨rfl, _, rfl⟩ | ⟨rfl, _, rfl⟩ | ⟨rfl, _, rfl⟩ <;> rfl
  rw [step_cons hs]
  change if InWindow s.capf s.capb width offset then _ else _
  split
  · next hin =>
    obtain ⟨t, ht⟩ := (locate_isSome_iff hf hb).2 hin
    obtain ⟨-, hw, -⟩ := target_of_locate ht
    exact perform_next_of_placed hacc ht hw
  · next hout =>
    refine perform_refused_of_not_placed hacc (Option.eq_none_iff_forall_ne_some.2 fun t ht => hout ?_)
    exact (locate_isSome_iff hf hb).1 ⟨t, ht⟩

end Sys2Proof.Machine
end

section
/-! Command words: the decoder and the opcode map are inverse, and what every other word does (R70 to R72). -/

namespace Sys2Proof.Machine

/-- The decoder answers a command exactly on the command's word (R71). -/
theorem decode_eq_ok_iff {w : Word} {i : Instr} : decode w = .ok i ↔ w = encode i := by
  constructor
  · exact eq_encode_of_decode
  · rintro rfl
    exact decode_encode i

/-- Settles O1: the column of command words, and `decode_eq_ok_iff`. -/
theorem decodeReadsExactlyTheNineWords : Obligations.DecodeReadsExactlyTheNineWords :=
  ⟨⟨rfl, rfl, rfl, rfl, rfl, rfl, rfl, rfl, rfl⟩, fun _ _ => decode_eq_ok_iff⟩

/-! Illegal words (R72). -/

/-- The opcodes above 8 are those of no command. -/
theorem instrOfOpcode_eq_none_iff {n : Nat} : instrOfOpcode n = none ↔ 8 < n := by
  match n with
  | 0 | 1 | 2 | 3 | 4 | 5 | 6 | 7 | 8 => simp [instrOfOpcode]
  | m + 9 => simp [instrOfOpcode]

/-- The decoder refuses a word exactly for its reserved bits or for its opcode. -/
theorem decode_ne_ok_iff {w : Word} :
    (∀ i, decode w ≠ .ok i) ↔ commandRsv w ≠ 0 ∨ 8 < (commandOp w).toNat := by
  unfold decode
  split
  · next hr => simpa using .inl hr
  · next hr =>
    rw [← instrOfOpcode_eq_none_iff]
    split
    · next j hj => simp [hj, not_not.1 hr]
    · next hn => simp [hn]

/-- The words that are none of the nine, by their two fields. -/
theorem ne_encode_iff {w : Word} : (∀ i, w ≠ encode i) ↔ commandRsv w ≠ 0 ∨ 8 < (commandOp w).toNat := by
  simp only [← decode_ne_ok_iff, ne_eq, decode_eq_ok_iff]

/-- With the latch clear, a word that is none of the nine latches `ILLEGAL_COMMAND` with its opcode byte. -/
theorem State.command_of_ne_encode {s : State} {w : Word} (hs : s.err = none) (hw : ∀ i, w ≠ encode i) :
    s.command w = .next (s.raise .illegalCommand (commandOp w)) := by
  obtain ⟨t, ht⟩ := s.command_next w
  rcases command_cases ht with ⟨hlatched, -⟩ | ⟨-, rfl, -⟩ | ⟨i, -, hi, -⟩
  · exact absurd hs hlatched
  · exact ht
  · exact absurd hi (hw i)

/-- Settles O6: `ne_encode_iff` tells the words apart, and the step of such a word is its `CMD` write. -/
theorem illegalCommandWordIsLatched : Obligations.IllegalCommandWordIsLatched :=
  ⟨fun _ => ne_encode_iff, fun _ _ _ hnext hs hw => (step_command hnext).trans (State.command_of_ne_encode hs hw)⟩

/-- Settles O2: the words of the map by `decode_encode`, the other three by running the decoder. -/
theorem sampleWordsDecode : Obligations.SampleWordsDecode :=
  ⟨decode_encode .qnt, decode_encode .sep, decode_encode .hupk, decode_encode .nop, rfl, rfl, rfl, rfl⟩

end Sys2Proof.Machine
end

section
/-! The sample codec's commands: QNT and DQT inside their ranges (R97, R98). -/

namespace Sys2Proof.Machine

/-- With both ranges inside the memories QNT stores. -/
theorem execQnt_of_inRange {s : State} (hf : s.srcN + s.lenN ≤ s.capf) (hb : s.dstN + 2 * s.lenN ≤ s.capb) :
    exec .qnt s = .next s.qntStore := by
  rw [exec, execQnt, if_neg (Nat.not_lt.2 hf), if_neg (Nat.not_lt.2 hb)]

/-- With the bytes in the stream and the destination in FMEM DQT stores. -/
theorem execDqt_of_inRange {s : State} (hb : s.srcN + 2 * s.lenN ≤ s.blenN) (hf : s.dstN + s.lenN ≤ s.capf) :
    exec .dqt s = .next (s.writeWords s.dstN s.dqtWords) := by
  rw [exec, execDqt, if_neg (Nat.not_lt.2 hb), if_neg (Nat.not_lt.2 hf)]

/-- The two bytes QNT stores for sample i. -/
theorem State.readB_qntStore_at (s : State) {i : Nat} (h : i < s.lenN) :
    s.qntStore.readB (s.dstN + 2 * i) = (pack16 (quant (s.readF (s.srcN + i)) s.ctrl.rmode).q).1 ∧
      s.qntStore.readB (s.dstN + 2 * i + 1) = (pack16 (quant (s.readF (s.srcN + i)) s.ctrl.rmode).q).2 := by
  obtain ⟨hlow, hhigh⟩ := s.getElem?_qntBytes h
  constructor
  · rw [State.readB_qntStore, State.readB_writeBytes, if_pos (by omega), Nat.add_sub_cancel_left, hlow,
      Option.getD_some]
  · rw [State.readB_qntStore, State.readB_writeBytes, if_pos (by omega), Nat.add_assoc, Nat.add_sub_cancel_left, hhigh,
      Option.getD_some]

/-- `BLEN` raised to an end inside BMEM is not cut, NB being at most 2^24. -/
theorem State.toNat_raisedBlen {s : State} (hc : s.capacitiesOk) {last : Nat} (hl : last ≤ s.capb) :
    (s.raisedBlen last).toNat = max s.blenN last := by
  obtain ⟨-, -, -, hcap⟩ := hc
  have hb : s.blenN < 2 ^ 32 := s.blen.isLt
  rw [State.raisedBlen, BitVec.toNat_ofNat, Nat.mod_eq_of_lt (by omega)]

/-- `BLEN` after QNT: raised to the end of the bytes when there are any. -/
theorem State.blenN_qntStore {s : State} (hc : s.capacitiesOk) (hb : s.dstN + 2 * s.lenN ≤ s.capb) :
    s.qntStore.blenN = if s.lenN = 0 then s.blenN else max s.blenN (s.dstN + 2 * s.lenN) := by
  rw [State.blenN, State.qntStore_blen]
  split
  · next hpos => rw [if_neg (by omega), State.toNat_raisedBlen hc hb]
  · next hzero => rw [if_pos (by omega), State.blenN]

/-- Settles O21: QNT stores, and its store has these bytes, flags, `BLEN` and columns. -/
theorem qntCompletesInRange : Obligations.QntCompletesInRange := by
  intro s hc hf hb
  refine ⟨s.qntStore, execQnt_of_inRange hf hb, fun i hi => s.readB_qntStore_at hi, fun j hj => ?_, ?_, ?_,
    State.blenN_qntStore hc hb, s.qntStore_eq⟩
  · rw [State.readB_qntStore, State.readB_writeBytes_outside _ _ _ (by rwa [State.length_qntBytes])]
  · rw [State.qntStore_flags, State.qntFlags, Flags.addQnt, Bool.or_eq_true, State.any_qntResults]
  · rw [State.qntStore_flags, State.qntFlags, Flags.addQnt, Bool.or_eq_true, State.any_qntResults]

/-- Settles O22: DQT stores one word per sample. -/
theorem dqtCompletesInRange : Obligations.DqtCompletesInRange := by
  intro s hb hf
  refine ⟨_, execDqt_of_inRange hb hf, fun i hi => s.readF_dqt hi, fun k hk => ?_, s.writeWords_eq _ _⟩
  exact State.readF_writeWords_outside _ _ _ (by rwa [State.length_dqtWords])

end Sys2Proof.Machine
end

section
/-! The integer roundings (R90, R91): rne_int is the nearest integer and even at a tie, rtz_int errs by less than 1, and
both are monotone. -/

namespace Sys2Proof.Machine

/-- rne_int is at most half away, and at exactly half it is even. -/
theorem rneInt_spec (p : ℚ) : |p - rneInt p| ≤ 1 / 2 ∧ (|p - rneInt p| = 1 / 2 → rneInt p % 2 = 0) := by
  have hlo := Int.floor_le p
  have hhi := Int.lt_floor_add_one p
  unfold rneInt
  split
  · next hbelow =>
    rw [abs_of_nonneg (by linarith)]
    exact ⟨hbelow.le, fun h => absurd h hbelow.ne⟩
  · split
    · next hle habove =>
      push_cast
      rw [abs_of_nonpos (by linarith)]
      exact ⟨by linarith, fun h => by linarith⟩
    · next hge hle =>
      have htie : p - ⌊p⌋ = 1 / 2 := le_antisymm (not_lt.1 hle) (not_lt.1 hge)
      split
      · next heven => exact ⟨by norm_num [htie], fun _ => heven⟩
      · next hodd =>
        push_cast
        rw [← sub_sub, htie]
        exact ⟨by norm_num [abs_of_neg], fun _ => by omega⟩

/-- rne_int is at most half away. -/
theorem abs_sub_rneInt_le (p : ℚ) : |p - rneInt p| ≤ 1 / 2 := (rneInt_spec p).1

/-- Different integers are at least 1 apart. -/
theorem one_le_abs_sub {k n : ℤ} (h : k ≠ n) : (1 : ℚ) ≤ |(k : ℚ) - n| := by
  exact_mod_cast Int.one_le_abs (sub_ne_zero.2 h)

/-- Two different integers have distances from p of at least 1 together. -/
theorem one_le_dist_add_dist (p : ℚ) {k n : ℤ} (h : k ≠ n) : 1 ≤ |p - k| + |p - n| := by
  calc (1 : ℚ) ≤ |(k : ℚ) - n| := one_le_abs_sub h
    _ ≤ |(k : ℚ) - p| + |p - n| := abs_sub_le _ _ _
    _ = |p - k| + |p - n| := by rw [abs_sub_comm (k : ℚ) p]

/-- The integer less than half away is rne_int. -/
theorem rneInt_eq_of_abs_lt {p : ℚ} {k : ℤ} (h : |p - k| < 1 / 2) : rneInt p = k := by
  by_contra hne
  have hdist := one_le_dist_add_dist p hne
  have hrne := abs_sub_rneInt_le p
  linarith

/-- Settles O42: another integer is at least half away, and exactly half away only when rne_int is too. -/
theorem rneIntIsNearestTiesToEven : Obligations.RneIntIsNearestTiesToEven := by
  intro p
  obtain ⟨hhalf, heven⟩ := rneInt_spec p
  refine ⟨fun k => ?_, fun k hk htie => heven ?_, rneInt_neg p⟩
  · by_cases hk : k = rneInt p
    · rw [hk]
    · linarith [one_le_dist_add_dist p hk]
  · linarith [one_le_dist_add_dist p hk]

/-- rne_int is monotone: were it to fall, p and p' would both lie exactly halfway. -/
theorem rneInt_mono : Monotone rneInt := by
  intro p p' hle
  by_contra! hlt
  have hp := abs_le.1 (abs_sub_rneInt_le p)
  have hp' := abs_le.1 (abs_sub_rneInt_le p')
  have hstep : (rneInt p' : ℚ) + 1 ≤ rneInt p := by exact_mod_cast hlt
  have heq : p = p' := by linarith
  rw [heq] at hlt
  exact lt_irrefl _ hlt

/-- rtz_int of a negative number is its ceiling. -/
theorem rtzInt_of_neg {p : ℚ} (h : p < 0) : rtzInt p = ⌈p⌉ := by
  rw [rtzInt, if_neg (not_le.2 h), Int.floor_neg, neg_neg]

/-- rtz_int of a number from 0 on is its floor. -/
theorem rtzInt_of_nonneg {p : ℚ} (h : 0 ≤ p) : rtzInt p = ⌊p⌋ := by
  rw [rtzInt, if_pos h]

/-- rtz_int is monotone. -/
theorem rtzInt_mono : Monotone rtzInt := by
  intro p p' hle
  rcases lt_or_ge p 0 with hp | hp
  · rw [rtzInt_of_neg hp]
    rcases lt_or_ge p' 0 with hp' | hp'
    · rw [rtzInt_of_neg hp']
      exact Int.ceil_mono hle
    · rw [rtzInt_of_nonneg hp']
      exact (Int.ceil_nonpos.2 hp.le).trans (Int.floor_nonneg.2 hp')
  · rw [rtzInt_of_nonneg hp, rtzInt_of_nonneg (hp.trans hle)]
    exact Int.floor_mono hle

/-- rtz_int discards less than 1 and never adds magnitude. -/
theorem rtzInt_spec (p : ℚ) : |p - rtzInt p| < 1 ∧ |(rtzInt p : ℚ)| ≤ |p| := by
  rcases lt_or_ge p 0 with hp | hp
  · rw [rtzInt_of_neg hp]
    have hle := Int.le_ceil p
    have hlt := Int.ceil_lt_add_one p
    have hnp : (⌈p⌉ : ℚ) ≤ 0 := by exact_mod_cast Int.ceil_nonpos.2 hp.le
    rw [abs_of_nonpos (sub_nonpos.2 hle), abs_of_nonpos hnp, abs_of_neg hp]
    constructor <;> linarith
  · rw [rtzInt_of_nonneg hp]
    have hle := Int.floor_le p
    have hlt := Int.lt_floor_add_one p
    have hnn : (0 : ℚ) ≤ ⌊p⌋ := by exact_mod_cast Int.floor_nonneg.2 hp
    rw [abs_of_nonneg (sub_nonneg.2 hle), abs_of_nonneg hnn, abs_of_nonneg hp]
    constructor <;> linarith

/-- Both roundings are monotone. -/
theorem roundInt_mono (rm : RoundMode) : Monotone (roundInt rm) := by
  cases rm with
  | rne => exact rneInt_mono
  | rtz => exact rtzInt_mono

/-- Both roundings fix the integers. -/
theorem roundInt_intCast (rm : RoundMode) (k : ℤ) : roundInt rm k = k := by
  cases rm with
  | rne => exact rneInt_eq_of_abs_lt (by simp)
  | rtz => rw [roundInt, rtzInt, Int.floor_intCast, ← Int.cast_neg, Int.floor_intCast, neg_neg, ite_self]

end Sys2Proof.Machine
end

section
/-! The quantizer against its rational pseudocode, and its properties (R93, R94, R99). -/

namespace Sys2Proof.Machine

/-! The integer quantizer and the rational one (R92, R93). -/

/-- The quantizer by the exponent field alone: 255 is an infinity or a NaN, anything else is finite (R78). -/
theorem quant_eq (w : Word) (rm : RoundMode) :
    quant w rm =
      if sampleExp w = 255 then
        if sampleFrac w = 0 then ⟨signed (sampleSign w) qmax, true, false⟩ else ⟨0, false, true⟩
      else quantFinite w rm := by
  rw [quant, classify]
  by_cases hexp : sampleExp w = 255
  · by_cases hfrac : sampleFrac w = 0 <;> simp [hexp, hfrac]
  · by_cases hzero : sampleExp w = 0
    · by_cases hfrac : sampleFrac w = 0 <;> simp [hzero, hfrac]
    · simp [hexp, hzero]

/-- On a finite word the integer quantizer is R93's product, rounding and clamp. -/
theorem quantFinite_eq (w : Word) (rm : RoundMode) :
    quantFinite w rm =
      ⟨clamp (roundInt rm (f32Val w * 32767)) (-32767) 32767, decide (1 < |f32Val w|), false⟩ := by
  rw [f32Val_scaled, signed_round rm _ _ (scaledDen_pos w), clamp_signed, quantFinite, decide_eq_decide.2 (sat_iff w)]

/-- Settles O41: `quantFinite_eq` for the finite words, the constants for the others. -/
theorem quantIsTheRationalPseudocode : Obligations.QuantIsTheRationalPseudocode := by
  intro w rm
  rw [quant_eq, quantSpec]
  by_cases hexp : sampleExp w = 255
  · by_cases hfrac : sampleFrac w = 0
    · cases hsign : sampleSign w <;> simp [hexp, hfrac, signed, qmax]
    · simp [hexp, hfrac]
  · simp only [hexp, false_and, if_false, quantFinite_eq]

/-- The code of a finite word. -/
theorem quant_q_of_finite {w : Word} (h : isFinite w) (rm : RoundMode) :
    (quant w rm).q = clamp (roundInt rm (f32Val w * 32767)) (-32767) 32767 := by
  rw [quant_eq, if_neg h, quantFinite_eq]

/-! Monotonicity (R99 (d)). -/

/-- Clamping is monotone. -/
theorem clamp_mono {lo hi : ℤ} (h : lo ≤ hi) : Monotone (clamp · lo hi) := by
  intro r r' hle
  simp only [clamp]
  split_ifs <;> omega

/-- Settles O45: the scaling, the rounding and the clamp are monotone. -/
theorem quantIsMonotone : Obligations.QuantIsMonotone := by
  intro w w' rm hw hw' hle
  rw [quant_q_of_finite hw, quant_q_of_finite hw']
  exact clamp_mono (by decide) (roundInt_mono rm (by linarith))

/-! Oddness (R99 (c)). -/

/-- Flipping bit 31 flips the sign and keeps the exponent, the fraction and w[30:0]. -/
theorem fields_flip (w : Word) :
    sampleSign (w ^^^ 0x80000000#32) = !sampleSign w ∧ sampleExp (w ^^^ 0x80000000#32) = sampleExp w ∧
      sampleFrac (w ^^^ 0x80000000#32) = sampleFrac w ∧
      sampleMagnitude (w ^^^ 0x80000000#32) = sampleMagnitude w := by
  simp [sampleSign, sampleExp, sampleFrac, sampleMagnitude, BitVec.extractLsb'_xor]

/-- The other sign negates a signed magnitude. -/
theorem signed_not (neg : Bool) (m : Nat) : signed (!neg) m = -signed neg m := by
  cases neg <;> simp [signed]

/-- On a finite word the quantizer reads the sign only to sign the code. -/
theorem quantFinite_flip (w : Word) (rm : RoundMode) :
    quantFinite (w ^^^ 0x80000000#32) rm = { quantFinite w rm with q := -(quantFinite w rm).q } := by
  obtain ⟨hsign, hexp, hfrac, hmag⟩ := fields_flip w
  simp only [quantFinite, scaledNum, scaledDen, significand, hsign, hexp, hfrac, hmag, signed_not]

/-- Settles O44: in each class of words the sign is applied last. -/
theorem quantIsOdd : Obligations.QuantIsOdd := by
  intro w rm
  obtain ⟨hsign, hexp, hfrac, -⟩ := fields_flip w
  rw [quant_eq, quant_eq, hexp, hfrac, hsign, quantFinite_flip, signed_not]
  split
  · split
    · rfl
    · rfl
  · rfl

/-! The byte pair of a code (R94). -/

/-- The bytes of a code are its 16-bit number, low byte first. -/
theorem pack16_toNat (q : Int) :
    (pack16 q).1.toNat + 256 * (pack16 q).2.toNat = (BitVec.ofInt 16 q).toNat := by
  have hlt := (BitVec.ofInt 16 q).isLt
  simp only [pack16, BitVec.extractLsb'_toNat, Nat.shiftRight_eq_div_pow]
  omega

/-- The 16-bit number of a byte pair. -/
theorem toNat_append_bytes (b0 b1 : Byte) : (b1 ++ b0 : BitVec 16).toNat = b0.toNat + 256 * b1.toNat := by
  rw [BitVec.toNat_append, ← Nat.shiftLeft_add_eq_or_of_lt b0.isLt, Nat.shiftLeft_eq]
  omega

/-- A code in range is the signed value of its bytes. -/
theorem unpack16_pack16 {q : Int} (hlo : -32768 ≤ q) (hhi : q ≤ 32767) : unpack16 (pack16 q).1 (pack16 q).2 = q := by
  have hword : ((pack16 q).2 ++ (pack16 q).1 : BitVec 16) = BitVec.ofInt 16 q :=
    BitVec.eq_of_toNat_eq (by rw [toNat_append_bytes, pack16_toNat])
  rw [unpack16, hword, BitVec.toInt_ofInt_eq_self (by decide) hlo (by omega)]

/-- A byte pair is the pair of its signed value. -/
theorem pack16_unpack16 (b0 b1 : Byte) : pack16 (unpack16 b0 b1) = (b0, b1) := by
  rw [pack16, unpack16, BitVec.ofInt_toInt, BitVec.extractLsb'_append_eq_right, BitVec.extractLsb'_append_eq_left]

/-- The signed value of a byte pair by its unsigned number. -/
theorem unpack16_eq (b0 b1 : Byte) :
    unpack16 b0 b1 = if b0.toNat + 256 * b1.toNat < 32768 then (b0.toNat + 256 * b1.toNat : Int)
      else (b0.toNat + 256 * b1.toNat : Int) - 65536 := by
  rw [unpack16, BitVec.toInt_eq_toNat_cond, toNat_append_bytes]
  split_ifs <;> omega

/-- The unsigned number of a code's bytes, u16(q) (R77). -/
theorem pack16_value {q : Int} (hlo : -32768 ≤ q) (hhi : q ≤ 32767) :
    ((pack16 q).1.toNat + 256 * (pack16 q).2.toNat : Int) = if 0 ≤ q then q else q + 65536 := by
  have hnum := pack16_toNat q
  rw [BitVec.toNat_ofInt] at hnum
  split_ifs <;> omega

/-- Settles O46: the number of the pair in each direction, and the two inverses. -/
theorem packAndUnpackAreInverse : Obligations.PackAndUnpackAreInverse :=
  ⟨fun _ hlo hhi => ⟨pack16_value hlo hhi, unpack16_pack16 hlo hhi⟩,
    fun b0 b1 => ⟨unpack16_eq b0 b1, pack16_unpack16 b0 b1⟩⟩

/-! The range of the code (R99 (a)). -/

/-- A signed magnitude up to the clipping bound lies in ±32767. -/
theorem signed_bounds (neg : Bool) {m : Nat} (h : m ≤ qmax) : -32767 ≤ signed neg m ∧ signed neg m ≤ 32767 := by
  have hm : m ≤ 32767 := h
  unfold signed
  split <;> omega

/-- The code of every word lies in ±32767. -/
theorem quant_q_bounds (w : Word) (rm : RoundMode) : -32767 ≤ (quant w rm).q ∧ (quant w rm).q ≤ 32767 := by
  rw [quant_eq]
  split
  · split
    · exact signed_bounds _ le_rfl
    · exact ⟨by decide, by decide⟩
  · exact signed_bounds _ (Nat.min_le_right _ _)

/-- Settles O43: the bytes 00 80 are those of −32768, which is out of the code's range. -/
theorem quantCodeIsInRange : Obligations.QuantCodeIsInRange := by
  intro w rm
  obtain ⟨hlo, hhi⟩ := quant_q_bounds w rm
  refine ⟨hlo, hhi, fun hbytes => ?_⟩
  have hback := unpack16_pack16 (by omega) hhi
  have hmin : unpack16 0x00#8 0x80#8 = -32768 := by decide
  rw [hbytes, hmin] at hback
  omega

end Sys2Proof.Machine
end

section
/-! The dequantizer against round_f32's pseudocode, and the value of its words (R79, R95, R96). -/

namespace Sys2Proof.Machine

/-! The fields and the value of an assembled word (R78, R79). -/

/-- The three fields of a word as digits of its number. -/
theorem fields_toNat (w : Word) :
    sampleSign w = decide (2 ^ 31 ≤ w.toNat) ∧ sampleExp w = w.toNat / 2 ^ 23 % 2 ^ 8 ∧
      sampleFrac w = w.toNat % 2 ^ 23 := by
  refine ⟨?_, ?_, ?_⟩
  · exact (BitVec.msb_eq_getLsbD_last w).symm.trans (BitVec.msb_eq_decide w)
  · rw [sampleExp, BitVec.extractLsb'_toNat, Nat.shiftRight_eq_div_pow]
  · rw [sampleFrac, BitVec.extractLsb'_toNat, Nat.shiftRight_zero]

/-- The fields of the word put together from a sign, an exponent field and a fraction field. -/
theorem fields_ofNat (neg : Bool) {E f : Nat} (hE : E < 2 ^ 8) (hf : f < 2 ^ 23) :
    let w := BitVec.ofNat 32 ((if neg then 2 ^ 31 else 0) + E * 2 ^ 23 + f)
    sampleSign w = neg ∧ sampleExp w = E ∧ sampleFrac w = f := by
  intro w
  have hw : w.toNat = (if neg then 2 ^ 31 else 0) + E * 2 ^ 23 + f := by
    rw [BitVec.toNat_ofNat]
    refine Nat.mod_eq_of_lt ?_
    split <;> omega
  obtain ⟨hsign, hexp, hfrac⟩ := fields_toNat w
  rw [hsign, hexp, hfrac, hw]
  cases neg
  · simp only [Bool.false_eq_true, if_false, decide_eq_false_iff_not]
    omega
  · simp only [if_true, decide_eq_true_eq]
    omega

/-- `assembleF32` over naturals. -/
theorem assembleF32_natCast {ρ : ℚ} {neg : Bool} (hneg : decide (ρ < 0) = neg) {e : ℤ} {E M : Nat} (he : e = E - 127)
    (hM : 2 ^ 23 ≤ M) :
    assembleF32 ρ e M = BitVec.ofNat 32 ((if neg then 2 ^ 31 else 0) + E * 2 ^ 23 + (M - 2 ^ 23)) := by
  rw [assembleF32, ← BitVec.ofInt_natCast, he, ← hneg]
  congr 1
  rw [Nat.cast_add, Nat.cast_add, Nat.cast_sub hM, sub_add_cancel]
  simp only [decide_eq_true_eq]
  push_cast
  rfl

/-- An assembled word with a normal exponent is finite, and its value is ±M · 2^(e−23). -/
theorem f32Val_assembleF32 (ρ : ℚ) {e M : ℤ} (he : -126 ≤ e ∧ e ≤ 127) (hM : 2 ^ 23 ≤ M ∧ M < 2 ^ 24) :
    isFinite (assembleF32 ρ e M) ∧
      f32Val (assembleF32 ρ e M) = signFactor (decide (ρ < 0)) * M * 2 ^ (e - 23) := by
  obtain ⟨E, hE⟩ := Int.eq_ofNat_of_zero_le (show 0 ≤ e + 127 by omega)
  obtain ⟨M, rfl⟩ := Int.eq_ofNat_of_zero_le (show 0 ≤ M by omega)
  obtain ⟨hsign, hexp, hfrac⟩ := fields_ofNat (decide (ρ < 0)) (E := E) (f := M - 2 ^ 23) (by omega) (by omega)
  have hM' : 2 ^ 23 ≤ M := by omega
  rw [assembleF32_natCast (E := E) rfl (by omega) hM']
  constructor
  · rw [isFinite, hexp]
    omega
  · rw [f32Val, hsign, hexp, hfrac, if_neg (by omega), show e - 23 = E - 150 by omega]
    rw [Nat.cast_sub hM']
    push_cast
    ring

/-! round_f32 of a fraction of naturals (R95). -/

/-- `binadeExp` finds the binade of num/den when it lies between 2^−126 and the start value's end. -/
theorem binadeExp_spec {num den : Nat} (n : Nat) (hlo : den * 2 ≤ num * 2 ^ 127)
    (hhi : num * 2 ^ 127 < den * 2 ^ (n + 1)) :
    1 ≤ binadeExp num den n ∧ den * 2 ^ binadeExp num den n ≤ num * 2 ^ 127 ∧
      num * 2 ^ 127 < den * 2 ^ (binadeExp num den n + 1) := by
  induction n with
  | zero => omega
  | succ n ih =>
    rw [binadeExp]
    split
    · next hle => exact ⟨by omega, hle, hhi⟩
    · next hgt => exact ih (not_le.1 hgt)

/-- A binade written with a biased exponent: num/den against 2^(E−127). -/
theorem zpow_le_div_iff {num den : Nat} (hden : 0 < den) (E : Nat) :
    (2 : ℚ) ^ ((E : ℤ) - 127) ≤ (num : ℚ) / den ↔ den * 2 ^ E ≤ num * 2 ^ 127 := by
  rw [zpow_sub₀ two_ne_zero, zpow_natCast, div_le_div_iff₀ (by positivity) (by positivity), mul_comm _ (den : ℚ)]
  exact_mod_cast Iff.rfl

/-- The significand of num/den in that binade, before rounding. -/
theorem div_zpow_mul (num den E : Nat) :
    (num : ℚ) / den / 2 ^ ((E : ℤ) - 127) * 2 ^ 23 = ((num * 2 ^ 150 : ℕ) : ℚ) / (den * 2 ^ E : ℕ) := by
  rw [zpow_sub₀ two_ne_zero, zpow_natCast]
  push_cast
  ring

/-- The sign and the magnitude of a signed fraction. -/
theorem signFactor_mul_pos (neg : Bool) {r : ℚ} (hr : 0 < r) :
    signFactor neg * r ≠ 0 ∧ |signFactor neg * r| = r ∧ decide (signFactor neg * r < 0) = neg := by
  cases neg
  · simp [signFactor, hr.ne', hr.le]
  · simp [signFactor, hr, hr.ne', hr.le]

/-- The significand of a number of the binade is rounded to 24 bits, or to 2^24 exactly (R95). -/
theorem rneInt_significand_bounds {r : ℚ} {e : ℤ} (hlo : 2 ^ e ≤ r) (hhi : r < 2 ^ (e + 1)) :
    2 ^ 23 ≤ rneInt (r / 2 ^ e * 2 ^ 23) ∧ rneInt (r / 2 ^ e * 2 ^ 23) ≤ 2 ^ 24 := by
  have hpos : (0 : ℚ) < 2 ^ e := by positivity
  have hone : 1 ≤ r / 2 ^ e := (one_le_div₀ hpos).2 hlo
  have htwo : r / 2 ^ e < 2 := by rwa [div_lt_iff₀ hpos, mul_comm, ← zpow_add_one₀ two_ne_zero]
  have hmono := roundInt_mono .rne
  rw [← roundInt_intCast .rne (2 ^ 23), ← roundInt_intCast .rne (2 ^ 24)]
  constructor
  · refine hmono ?_
    push_cast
    linarith
  · refine hmono ?_
    push_cast
    linarith

/-- `roundF32` over its exponent field E and its rounded significand M, with the carry. -/
theorem roundF32_eq {ρ : ℚ} {neg : Bool} (hneg : decide (ρ < 0) = neg) {num den : Nat} (hnum : num ≠ 0) {E M : Nat}
    (hE : binadeExp num den 254 = E) (hM : rneDiv (num * 2 ^ 150) (den * 2 ^ E) = M) (hlo : 2 ^ 23 ≤ M) :
    roundF32 neg num den =
      if (M : ℤ) = 2 ^ 24 then assembleF32 ρ ((E : ℤ) - 127 + 1) (2 ^ 23) else assembleF32 ρ ((E : ℤ) - 127) M := by
  simp only [roundF32, if_neg hnum, hE, hM]
  by_cases hcarry : M = 2 ^ 24
  · have h := assembleF32_natCast hneg (e := (E : ℤ) - 127 + 1) (E := E + 1) (by push_cast; ring) (le_refl (2 ^ 23))
    simp only [hcarry, if_true, ← h]
    norm_num
  · have hcarry' : (M : ℤ) ≠ 2 ^ 24 := by exact_mod_cast hcarry
    rw [if_neg hcarry', assembleF32_natCast hneg rfl hlo]
    simp only [hcarry, if_false]

/-- `roundF32` is round_f32 of the signed fraction, for magnitudes in the normal range. -/
theorem isRoundF32_roundF32 (neg : Bool) {num den : Nat} (hden : 0 < den) (hlo : den ≤ num * 2 ^ 126)
    (hhi : num < den * 2 ^ 128) : IsRoundF32 (signFactor neg * ((num : ℚ) / den)) (roundF32 neg num den) := by
  have hnum : 0 < num := by omega
  obtain ⟨hne, habs, hneg⟩ := signFactor_mul_pos neg (r := (num : ℚ) / den) (by positivity)
  obtain ⟨-, hE, hE'⟩ := binadeExp_spec (num := num) (den := den) 254 (by omega) (by omega)
  generalize hbinade : binadeExp num den 254 = E at hE hE'
  have hbin := (zpow_le_div_iff hden E).2 hE
  have hbin' : (num : ℚ) / den < 2 ^ ((E : ℤ) - 127 + 1) := by
    have h := mt (zpow_le_div_iff hden (E + 1)).1 (not_le.2 hE')
    rwa [not_le, Nat.cast_succ, add_sub_right_comm] at h
  have hM : rneInt ((num : ℚ) / den / 2 ^ ((E : ℤ) - 127) * 2 ^ 23) = rneDiv (num * 2 ^ 150) (den * 2 ^ E) := by
    rw [div_zpow_mul, rneInt_div _ (by positivity)]
  obtain ⟨hMlo, -⟩ := rneInt_significand_bounds hbin hbin'
  rw [hM] at hMlo
  rw [IsRoundF32, if_neg hne]
  refine ⟨(E : ℤ) - 127, by rwa [habs], by rwa [habs], ?_⟩
  rw [habs, hM]
  exact roundF32_eq hneg hnum.ne' hbinade rfl (by exact_mod_cast hMlo)

/-! The dequantizer (R96). -/

/-- A code is its sign on its magnitude. -/
theorem intCast_eq_signFactor_mul (q : ℤ) : (q : ℚ) = signFactor (decide (q < 0)) * (q.natAbs : ℚ) := by
  rw [Nat.cast_natAbs]
  rcases lt_or_ge q 0 with hq | hq
  · simp [signFactor, hq, abs_of_neg]
  · simp [signFactor, hq.not_gt, abs_of_nonneg hq]

/-- The dequantizer rounds the quotient once. -/
theorem isRoundF32_dequant {q : ℤ} (hlo : -32768 ≤ q) (hhi : q ≤ 32767) : IsRoundF32 ((q : ℚ) / 32767) (dequant q) := by
  by_cases hq : q = 0
  · subst hq
    rw [IsRoundF32, if_pos (by simp)]
    rfl
  · rw [intCast_eq_signFactor_mul, mul_div_assoc]
    exact isRoundF32_roundF32 _ (num := q.natAbs) (den := 32767) (by decide) (by omega) (by omega)

/-- Settles O47: `isRoundF32_dequant`, and the dequantizer run on the four codes. -/
theorem dequantIsTheRoundedQuotient : Obligations.DequantIsTheRoundedQuotient :=
  ⟨fun _ hlo hhi => isRoundF32_dequant hlo hhi, rfl, rfl, rfl, rfl⟩

end Sys2Proof.Machine
end

section
/-! How near the dequantized word is to its quotient, and what follows: strict monotonicity (R100) and both round trips
(R101). -/

namespace Sys2Proof.Machine

/-! The value of a word round_f32 gives. -/

/-- Rounding a scaled number is the sign on rounding the scaled magnitude. -/
theorem rneInt_scaled (ρ a b : ℚ) :
    (rneInt (ρ / a * b) : ℚ) = signFactor (decide (ρ < 0)) * rneInt (|ρ| / a * b) := by
  rcases lt_or_ge ρ 0 with h | h
  · have hneg : |ρ| / a * b = -(ρ / a * b) := by rw [abs_of_neg h, neg_div, neg_mul]
    simp [signFactor, h, hneg, rneInt_neg]
  · simp [signFactor, h.not_gt, abs_of_nonneg h]

/-- round_f32 of a normal number in the binade e is the multiple of 2^(e−23) nearest to it. -/
theorem IsRoundF32.value {ρ : ℚ} {w : Word} (h : IsRoundF32 ρ w) (hlo : 2 ^ (-126 : ℤ) ≤ |ρ|) (hhi : |ρ| < 2) :
    ∃ e : ℤ, e ≤ 0 ∧ 2 ^ e ≤ |ρ| ∧ isFinite w ∧ f32Val w = rneInt (ρ / 2 ^ e * 2 ^ 23) * 2 ^ (e - 23) := by
  have hne : ρ ≠ 0 := by
    rintro rfl
    norm_num at hlo
  rw [IsRoundF32, if_neg hne] at h
  obtain ⟨e, he, he', hw⟩ := h
  have hemax : e < 1 := (zpow_lt_zpow_iff_right₀ one_lt_two).1 (he.trans_lt (by simpa using hhi))
  have hemin : -126 < e + 1 := (zpow_lt_zpow_iff_right₀ one_lt_two).1 (hlo.trans_lt he')
  refine ⟨e, by omega, he, ?_⟩
  obtain ⟨hMlo, hMhi⟩ := rneInt_significand_bounds he he'
  rw [rneInt_scaled]
  generalize rneInt (|ρ| / 2 ^ e * 2 ^ 23) = M at hw hMlo hMhi ⊢
  rw [hw]
  split
  · next hcarry =>
    obtain ⟨hfin, hval⟩ := f32Val_assembleF32 ρ (e := e + 1) (M := 2 ^ 23) (by omega) (by omega)
    refine ⟨hfin, ?_⟩
    rw [hval, hcarry, show e + 1 - 23 = e - 23 + 1 by ring, zpow_add_one₀ two_ne_zero]
    push_cast
    ring
  · exact f32Val_assembleF32 ρ (by omega) (by omega)

/-- The magnitude of a quotient by 32767. -/
theorem abs_div_scale (x : ℚ) : |x / 32767| = |x| / 32767 := by
  rw [abs_div, abs_of_pos (by norm_num : (0 : ℚ) < 32767)]

/-- The magnitude of a scaled value. -/
theorem abs_mul_scale (x : ℚ) : |x * 32767| = |x| * 32767 := by
  rw [abs_mul, abs_of_pos (by norm_num : (0 : ℚ) < 32767)]

/-- The value of a dequantized code: its quotient rounded to a multiple of 2^−m, where 2^−m resolves the quotient to 24
significant bits. -/
theorem dequant_value {q : ℤ} (hlo : -32768 ≤ q) (hhi : q ≤ 32767) (hq : q ≠ 0) :
    ∃ m : ℕ, 23 ≤ m ∧ 2 ^ 23 ≤ |(q : ℚ) / 32767| * 2 ^ m ∧ isFinite (dequant q) ∧
      f32Val (dequant q) = rneInt ((q : ℚ) / 32767 * 2 ^ m) / 2 ^ m := by
  have hone : 1 ≤ |(q : ℚ)| := by exact_mod_cast Int.one_le_abs hq
  have hmax : |(q : ℚ)| ≤ 32768 := by
    rw [abs_le]
    exact ⟨by exact_mod_cast hlo, by exact_mod_cast hhi.trans (by decide)⟩
  obtain ⟨e, he, hbin, hfin, hval⟩ := (isRoundF32_dequant hlo hhi).value
    (by rw [abs_div_scale, le_div_iff₀ (by norm_num)]; norm_num; linarith) (by rw [abs_div_scale]; linarith)
  obtain ⟨m, hm⟩ := Int.eq_ofNat_of_zero_le (show 0 ≤ 23 - e by omega)
  have hpow : (2 : ℚ) ^ m * 2 ^ e = 2 ^ 23 := by
    rw [← zpow_natCast, ← zpow_add₀ two_ne_zero, ← hm, sub_add_cancel]
    norm_num
  refine ⟨m, by omega, ?_, hfin, ?_⟩
  · calc (2 : ℚ) ^ 23 = 2 ^ e * 2 ^ m := by rw [← hpow, mul_comm]
      _ ≤ |(q : ℚ) / 32767| * 2 ^ m := by gcongr
  · rw [hval, show e - 23 = -(m : ℤ) by omega, zpow_neg, zpow_natCast, ← hpow, ← div_eq_mul_inv, ← mul_assoc,
      mul_right_comm, div_mul_cancel₀ _ (by positivity)]

/-- Code 0 dequantizes to a finite word of value 0. -/
theorem dequant_zero_value : isFinite (dequant 0) ∧ f32Val (dequant 0) = 0 := by
  have hword : dequant 0 = 0#32 := rfl
  have hfrac : sampleFrac 0#32 = 0 := rfl
  have hexp : sampleExp 0#32 = 0 := rfl
  rw [hword]
  exact ⟨by simp [isFinite, hexp], by simp [f32Val, hexp, hfrac]⟩

/-- Rounding to a multiple of 2^−m errs by at most half of 2^−m. -/
theorem abs_rneInt_div_sub_le (ρ : ℚ) {m k : ℕ} (hk : k ≤ m + 1) :
    |(rneInt (ρ * 2 ^ m) : ℚ) / 2 ^ m - ρ| ≤ 1 / 2 ^ k := by
  have hpos : (0 : ℚ) < 2 ^ m := by positivity
  calc |(rneInt (ρ * 2 ^ m) : ℚ) / 2 ^ m - ρ| = |ρ * 2 ^ m - rneInt (ρ * 2 ^ m)| / 2 ^ m := by
        rw [← abs_of_pos hpos, ← abs_div, abs_of_pos hpos, sub_div, mul_div_cancel_right₀ _ hpos.ne', abs_sub_comm]
    _ ≤ 1 / 2 / 2 ^ m := by gcongr; exact abs_sub_rneInt_le _
    _ = 1 / 2 ^ (m + 1) := by rw [div_div, pow_succ']
    _ ≤ 1 / 2 ^ k := by gcongr; norm_num

/-- A dequantized code is finite and errs by at most 2^−24. -/
theorem dequant_error_le {q : ℤ} (hlo : -32768 ≤ q) (hhi : q ≤ 32767) :
    isFinite (dequant q) ∧ |f32Val (dequant q) - q / 32767| ≤ 1 / 2 ^ 24 := by
  by_cases hq : q = 0
  · obtain ⟨hfin, hval⟩ := dequant_zero_value
    subst hq
    exact ⟨hfin, by norm_num [hval]⟩
  · obtain ⟨m, hm, -, hfin, hval⟩ := dequant_value hlo hhi hq
    refine ⟨hfin, ?_⟩
    rw [hval]
    exact abs_rneInt_div_sub_le _ (by omega)

/-- A dequantized code of ±32767 errs by at most 2^−25: ±32767 are exact, and the others have magnitude below 1. -/
theorem dequant_error_le_of_abs_le {q : ℤ} (hlo : -32767 ≤ q) (hhi : q ≤ 32767) :
    |f32Val (dequant q) - q / 32767| ≤ 1 / 2 ^ 25 := by
  by_cases hq : q = 0
  · subst hq
    norm_num [dequant_zero_value.2]
  obtain ⟨m, hm, hbin, -, hval⟩ := dequant_value (by omega) hhi hq
  rw [hval]
  by_cases hend : |q| = 32767
  · obtain ⟨k, hk⟩ : ∃ k : ℤ, (q : ℚ) / 32767 = k := by
      rcases eq_or_eq_neg_of_abs_eq hend with rfl | rfl
      · exact ⟨1, by norm_num⟩
      · exact ⟨-1, by norm_num⟩
    have hfix : (rneInt ((k : ℚ) * 2 ^ m) : ℚ) = k * 2 ^ m := by
      exact_mod_cast congrArg (Int.cast (R := ℚ)) (roundInt_intCast .rne (k * 2 ^ m))
    rw [hk, hfix, mul_div_cancel_right₀ _ (by positivity), sub_self, abs_zero]
    positivity
  · have hlt : |(q : ℚ)| < 32767 := by
      exact_mod_cast lt_of_le_of_ne (abs_le.2 ⟨hlo, hhi⟩) hend
    have hm' : 23 < m := by
      refine (pow_lt_pow_iff_right₀ (one_lt_two (α := ℚ))).1 (hbin.trans_lt ?_)
      refine mul_lt_of_lt_one_left (by positivity) ?_
      rwa [abs_div_scale, div_lt_one (by norm_num)]
    exact abs_rneInt_div_sub_le _ (by omega)

/-! What follows. -/

/-- Settles O50: the error 2^−24 on either side is less than half the distance of two codes. -/
theorem dequantIsStrictlyMonotone : Obligations.DequantIsStrictlyMonotone := by
  intro q q' hlo hlt hhi
  obtain ⟨-, herr⟩ := dequant_error_le hlo (by omega)
  obtain ⟨-, herr'⟩ := dequant_error_le (q := q') (by omega) hhi
  have hstep : (q : ℚ) + 1 ≤ q' := by exact_mod_cast hlt
  have hup := (abs_le.1 herr).2
  have hdown := (abs_le.1 herr').1
  norm_num at hup hdown
  linarith

/-- A code in ±32767 is not clamped. -/
theorem clamp_of_mem {r : ℤ} (hlo : -32767 ≤ r) (hhi : r ≤ 32767) : clamp r (-32767) 32767 = r := by
  rw [clamp, if_neg (by omega), if_neg (by omega)]

/-- Settles O49: the error of a dequantized code, scaled by 32767, is below 1/2. -/
theorem dequantThenQuantRneIsIdentity : Obligations.DequantThenQuantRneIsIdentity := by
  intro q hlo hhi
  obtain ⟨hfin, herr⟩ := dequant_error_le (by omega) hhi
  have hround : roundInt .rne (f32Val (dequant q) * 32767) = q := by
    refine rneInt_eq_of_abs_lt ?_
    rw [abs_le] at herr
    rw [abs_lt]
    norm_num at herr
    constructor <;> linarith
  rw [quant_q_of_finite hfin, hround, clamp_of_mem hlo hhi]

/-! The round trip from a sample (R101). -/

/-- The scaled value of a sample of [−1, 1] is rounded to a code that is not clamped. -/
theorem quant_q_of_abs_le_one {w : Word} (h : isFinite w) (hv : |f32Val w| ≤ 1) (rm : RoundMode) :
    (quant w rm).q = roundInt rm (f32Val w * 32767) := by
  rw [abs_le] at hv
  have hlo := roundInt_mono rm (show ((-32767 : ℤ) : ℚ) ≤ f32Val w * 32767 by push_cast; linarith)
  have hhi := roundInt_mono rm (show f32Val w * 32767 ≤ ((32767 : ℤ) : ℚ) by push_cast; linarith)
  rw [roundInt_intCast] at hlo hhi
  rw [quant_q_of_finite h, clamp_of_mem hlo hhi]

/-- Under RNE the two roundings err by at most 1/65534 and 2^−25. -/
theorem roundTrip_rne {w : Word} (h : isFinite w) (hv : |f32Val w| ≤ 1) :
    |f32Val (dequant (quant w .rne).q) - f32Val w| ≤ 1 / 65534 + 1 / 2 ^ 25 := by
  obtain ⟨hlo, hhi⟩ := quant_q_bounds w .rne
  have hdeq := dequant_error_le_of_abs_le hlo hhi
  have hquant : |((quant w .rne).q : ℚ) / 32767 - f32Val w| ≤ 1 / 65534 := by
    have hround := abs_sub_rneInt_le (f32Val w * 32767)
    rw [quant_q_of_abs_le_one h hv, roundInt, abs_le]
    rw [abs_le] at hround
    constructor <;> linarith
  calc |f32Val (dequant (quant w .rne).q) - f32Val w|
      ≤ |f32Val (dequant (quant w .rne).q) - (quant w .rne).q / 32767| + |((quant w .rne).q : ℚ) / 32767 - f32Val w| :=
        abs_sub_le _ _ _
    _ ≤ 1 / 65534 + 1 / 2 ^ 25 := by linarith

/-- The value of a word over its integer significand (R92). -/
theorem f32Val_eq_significand (w : Word) :
    f32Val w = signFactor (sampleSign w) * significand w * 2 ^ ((max (sampleExp w) 1 : ℕ) - 150 : ℤ) := by
  unfold f32Val significand
  split
  · next hzero => simp [hzero]
  · next hpos =>
    rw [max_eq_left (by omega)]
    push_cast
    rfl

/-- The value of a signed magnitude. -/
theorem cast_signed (neg : Bool) (m : ℕ) : ((signed neg m : ℤ) : ℚ) = signFactor neg * m := by
  cases neg <;> simp [signed, signFactor]

/-- An integer significand has 24 bits. -/
theorem significand_lt (w : Word) : significand w < 2 ^ 24 := by
  have hf := sampleFrac_lt w
  unfold significand
  split <;> omega

/-- A sample of magnitude at least 2^23 · 2^−m is a multiple of 2^−m. -/
theorem exists_f32Val_eq_div {w : Word} {m : ℕ} (h : 2 ^ 23 ≤ |f32Val w| * 2 ^ m) :
    ∃ n : ℤ, f32Val w = n / 2 ^ m := by
  rw [f32Val_eq_significand] at h ⊢
  generalize ((max (sampleExp w) 1 : ℕ) - 150 : ℤ) = x at h
  rcases lt_or_ge (x + m) 0 with hx | hx
  · exfalso
    have hsig : (significand w : ℚ) < 2 ^ 24 := by exact_mod_cast significand_lt w
    have hpow : (2 : ℚ) ^ x * 2 ^ m ≤ 2 ^ (-1 : ℤ) := by
      rw [← zpow_natCast, ← zpow_add₀ two_ne_zero]
      exact zpow_le_zpow_right₀ one_le_two (by omega)
    have hlt : (significand w : ℚ) * (2 ^ x * 2 ^ m) < 2 ^ 24 * 2 ^ (-1 : ℤ) :=
      mul_lt_mul hsig hpow (by positivity) (by positivity)
    rw [abs_mul, abs_mul, abs_signFactor, one_mul, Nat.abs_cast, abs_of_pos (by positivity), mul_assoc] at h
    norm_num at h hlt
    linarith
  · obtain ⟨k, hk⟩ := Int.eq_ofNat_of_zero_le hx
    refine ⟨signed (sampleSign w) (significand w * 2 ^ k), ?_⟩
    rw [cast_signed, eq_div_iff (by positivity), mul_assoc, ← zpow_natCast, ← zpow_add₀ two_ne_zero, hk, mul_assoc]
    push_cast
    rw [zpow_natCast]

/-- 2^m leaves a small power of two modulo 32767 = 2^15 − 1, so no multiple of 32767 lies shortly above 2^m. -/
theorem two_pow_mod_qmax (m : ℕ) : 1 ≤ 2 ^ m % 32767 ∧ 2 ^ m % 32767 ≤ 2 ^ 14 := by
  have hle : 2 ^ (m % 15) ≤ 2 ^ 14 := Nat.pow_le_pow_right (by decide) (by omega)
  have hmod : 2 ^ m % 32767 = 2 ^ (m % 15) := by
    calc 2 ^ m % 32767 = (2 ^ 15) ^ (m / 15) * 2 ^ (m % 15) % 32767 := by rw [← pow_mul, ← pow_add, Nat.div_add_mod]
      _ = 2 ^ (m % 15) := by
        rw [Nat.mul_mod, Nat.pow_mod, show 2 ^ 15 % 32767 = 1 by decide, one_pow]
        rw [Nat.one_mod_eq_one.2 (by decide), one_mul, Nat.mod_mod, Nat.mod_eq_of_lt (by omega)]
  rw [hmod]
  exact ⟨Nat.one_le_two_pow, hle⟩

/-- In multiples of 2^−m: n is within a step of q, and k is q / 32767 rounded. They differ by less than a step, because
`(k - n) * 32767` could pass 2^m only by more than the rounding error. -/
theorem abs_sub_mul_lt {m : ℕ} {q n k : ℤ} (hn : |n * 32767 - q * 2 ^ m| < 2 ^ m)
    (hk : |q * 2 ^ m - k * 32767| ≤ 16383) : |k - n| * 32767 < 2 ^ m := by
  obtain ⟨hlo, hhi⟩ := two_pow_mod_qmax m
  have hpow : (2 : ℤ) ^ m = ((2 ^ m : ℕ) : ℤ) := by push_cast; rfl
  rw [hpow] at hn hk ⊢
  generalize q * ((2 ^ m : ℕ) : ℤ) = a at hn hk
  generalize 2 ^ m = P at *
  rw [abs_lt] at hn
  rw [abs_le] at hk
  rcases abs_cases (k - n) with ⟨habs, -⟩ | ⟨habs, -⟩
  · rw [habs]
    omega
  · rw [habs]
    omega

/-- A multiple of 2^−m within a step of the code q is within 1/32767 of q / 32767 rounded to such a multiple. -/
theorem abs_rneInt_div_sub_lt {m : ℕ} {q n : ℤ} (h : |(n : ℚ) / 2 ^ m * 32767 - q| < 1) :
    |(rneInt ((q : ℚ) / 32767 * 2 ^ m) : ℚ) / 2 ^ m - n / 2 ^ m| < 1 / 32767 := by
  have hpos : (0 : ℚ) < 2 ^ m := by positivity
  have hround := abs_sub_rneInt_le ((q : ℚ) / 32767 * 2 ^ m)
  generalize rneInt ((q : ℚ) / 32767 * 2 ^ m) = k at hround
  have hn : |n * 32767 - q * 2 ^ m| < 2 ^ m := by
    have heq : (n : ℚ) * 32767 - q * 2 ^ m = (n / 2 ^ m * 32767 - q) * 2 ^ m := by field_simp
    have hlt : |(n : ℚ) * 32767 - q * 2 ^ m| < 2 ^ m := by
      rw [heq, abs_mul, abs_of_pos hpos]
      exact mul_lt_of_lt_one_left hpos h
    exact_mod_cast hlt
  have hk : |q * 2 ^ m - k * 32767| ≤ 16383 := by
    have heq : (q : ℚ) * 2 ^ m - k * 32767 = (q / 32767 * 2 ^ m - k) * 32767 := by ring
    have hle : 2 * |(q : ℚ) * 2 ^ m - k * 32767| ≤ 32767 := by
      rw [heq, abs_mul_scale]
      linarith
    have hle' : 2 * |q * 2 ^ m - k * 32767| ≤ 32767 := by exact_mod_cast hle
    omega
  have hsub : |(k : ℚ) - n| * 32767 < 2 ^ m := by exact_mod_cast abs_sub_mul_lt hn hk
  rwa [← sub_div, abs_div, abs_of_pos hpos, div_lt_div_iff₀ hpos (by norm_num), one_mul]

/-- Under RTZ the round trip errs by less than a step: code 0 by the truncation alone, any other code because the sample
lies on the grid to which its quotient is rounded. -/
theorem roundTrip_rtz {w : Word} (h : isFinite w) (hv : |f32Val w| ≤ 1) :
    |f32Val (dequant (quant w .rtz).q) - f32Val w| < 1 / 32767 := by
  obtain ⟨hlo, hhi⟩ := quant_q_bounds w .rtz
  obtain ⟨herr, hmag⟩ : |f32Val w * 32767 - (quant w .rtz).q| < 1 ∧ |((quant w .rtz).q : ℚ)| ≤ |f32Val w * 32767| := by
    rw [quant_q_of_abs_le_one h hv]
    exact rtzInt_spec _
  generalize (quant w .rtz).q = q at *
  by_cases hq : q = 0
  · subst hq
    rw [Int.cast_zero, sub_zero, abs_mul_scale] at herr
    rwa [dequant_zero_value.2, zero_sub, abs_neg, lt_div_iff₀ (by norm_num)]
  · obtain ⟨m, -, hbin, -, hval⟩ := dequant_value (by omega) hhi hq
    have hle : |(q : ℚ) / 32767| ≤ |f32Val w| := by
      rwa [abs_div_scale, div_le_iff₀ (by norm_num), ← abs_mul_scale]
    obtain ⟨n, hn⟩ := exists_f32Val_eq_div (hbin.trans (mul_le_mul_of_nonneg_right hle (by positivity)))
    rw [hn] at herr
    rw [hval, hn]
    exact abs_rneInt_div_sub_lt herr

/-- Settles O48: `roundTrip_rne` and `roundTrip_rtz`. -/
theorem roundTripErrorIsBelowOneStep : Obligations.RoundTripErrorIsBelowOneStep :=
  fun _ h hv => ⟨roundTrip_rne h hv, roundTrip_rtz h hv⟩

end Sys2Proof.Machine
end

section
/-! The channel interleaver's commands: MRG and SEP on disjoint ranges (R111, R112), and that each undoes the other
(R114). -/

namespace Sys2Proof.Machine

/-- With NCH > 0, disjoint ranges and both inside FMEM MRG stores. -/
theorem execMrg_of_disjoint {s : State} (hn : s.nchN ≠ 0) (ho : ¬ rangesOverlap s.srcN s.mrgCount s.dstN s.mrgCount)
    (hsrc : s.srcN + s.mrgCount ≤ s.capf) (hdst : s.dstN + s.mrgCount ≤ s.capf) :
    exec .mrg s = .next (s.writeWords s.dstN s.mrgWords) := by
  rw [exec, execMrg, if_neg hn, if_neg ho, if_neg (Nat.not_lt.2 hsrc), if_neg (Nat.not_lt.2 hdst)]

/-- With NCH > 0, disjoint ranges and both inside FMEM SEP stores. -/
theorem execSep_of_disjoint {s : State} (hn : s.nchN ≠ 0) (ho : ¬ rangesOverlap s.srcN s.lenN s.dstN s.sepCount)
    (hsrc : s.srcN + s.lenN ≤ s.capf) (hdst : s.dstN + s.sepCount ≤ s.capf) :
    exec .sep s = .next s.sepStore := by
  rw [exec, execSep, if_neg hn, if_neg ho, if_neg (Nat.not_lt.2 hsrc), if_neg (Nat.not_lt.2 hdst)]

/-- The word SEP stores for sample k of channel c. -/
theorem State.readF_sepStore_at (s : State) {c k : Nat} (hc : c < s.nchN) (hk : k < s.sepLen) :
    s.sepStore.readF (s.dstN + c * s.sepLen + k) = s.readF (s.srcN + k * s.nchN + c) := by
  rw [State.readF_sepStore, s.readF_sep hc hk]

/-- SEP's store leaves FMEM outside its range as it was. -/
theorem State.readF_sepStore_outside (s : State) {k : Nat} (h : k < s.dstN ∨ s.dstN + s.sepCount ≤ k) :
    s.sepStore.readF k = s.readF k := by
  rw [State.readF_sepStore, State.readF_writeWords_outside _ _ _ (by rwa [State.length_sepWords])]

/-- `REM` after SEP: set when it was, or when samples were dropped. -/
theorem State.rem_sepStore (s : State) :
    s.sepStore.flags.rem = true ↔ s.flags.rem = true ∨ s.lenN % s.nchN ≠ 0 := by
  rw [State.sepStore_flags, Flags.addRem, Bool.or_eq_true, decide_eq_true_iff]

/-- Settles O23: MRG stores its interleaved words. -/
theorem mrgCompletesOnDisjointRanges : Obligations.MrgCompletesOnDisjointRanges := by
  intro s hn ho hsrc hdst
  have hdisjoint : ¬ rangesOverlap s.srcN s.mrgCount s.dstN s.mrgCount := fun ⟨hpos, _, hlow, hhigh⟩ =>
    ho ⟨hpos, hlow, hhigh⟩
  refine ⟨_, execMrg_of_disjoint hn hdisjoint hsrc hdst, fun i hi c hc => s.readF_mrg hi hc, fun k hk => ?_,
    s.writeWords_eq _ _⟩
  exact State.readF_writeWords_outside _ _ _ (by rwa [State.length_mrgWords])

/-- Settles O24: SEP stores its planar words and `REM`. -/
theorem sepCompletesOnDisjointRanges : Obligations.SepCompletesOnDisjointRanges :=
  fun s hn ho hsrc hdst =>
    ⟨s.sepStore, execSep_of_disjoint hn ho hsrc hdst, fun _ hc _ hk => s.readF_sepStore_at hc hk,
      fun _ hk => s.readF_sepStore_outside hk, s.rem_sepStore, s.sepStore_eq⟩

/-- A command that answers with a clear latch has completed: a fault would have set it. -/
theorem completed_of_err_eq_none {i : Instr} {s t : State} (h : exec i s = .next t) (ht : t.err = none) :
    Completed i s t := by
  rcases exec_cases h with ⟨c, rfl⟩ | hc
  · exact nomatch ht
  · exact hc

/-- The state with its operands written anew for the second command of a pair: `NCH`, flags and memories stay. -/
def State.withOperands (s : State) (src dst len : Word) : State := { s with src := src, dst := dst, len := len }

/-- Completed MRG, then the operands of the SEP that reads its output from the old DST. -/
def State.mrgThenOperands (s : State) (back len : Word) : State :=
  (s.writeWords s.dstN s.mrgWords).withOperands s.dst back len

/-- Completed SEP, then the operands of the MRG that reads its output from the old DST. -/
def State.sepThenOperands (s : State) (back len : Word) : State := s.sepStore.withOperands s.dst back len

section
variable (s : State) (back len : Word)

@[simp] theorem State.mrgThenOperands_nchN : (s.mrgThenOperands back len).nchN = s.nchN :=
  congrArg BitVec.toNat (s.writeWords_nch _ _)

@[simp] theorem State.mrgThenOperands_flags : (s.mrgThenOperands back len).flags = s.flags := s.writeWords_flags _ _

@[simp] theorem State.sepThenOperands_nchN : (s.sepThenOperands back len).nchN = s.nchN :=
  congrArg BitVec.toNat s.sepStore_nch

/-- At its SRC the second command finds the word MRG wrote for frame i of channel c. -/
theorem State.readF_mrgThenOperands {i c : Nat} (hi : i < s.lenN) (hc : c < s.nchN) :
    (s.mrgThenOperands back len).readF ((s.mrgThenOperands back len).srcN + i * s.nchN + c) =
      s.readF (s.srcN + c * s.lenN + i) := s.readF_mrg hi hc

/-- At its SRC the second command finds the word SEP wrote for sample k of channel c. -/
theorem State.readF_sepThenOperands {c k : Nat} (hc : c < s.nchN) (hk : k < s.sepLen) :
    (s.sepThenOperands back len).readF ((s.sepThenOperands back len).srcN + c * s.sepLen + k) =
      s.readF (s.srcN + k * s.nchN + c) := s.readF_sepStore_at hc hk

end

section
variable {s : State} {back len : Word}

/-- With LEN = NCH·L, SEP gives channels of length L. -/
theorem State.sepLen_mrgThenOperands (hn : s.nchN ≠ 0) (hlen : len.toNat = s.nchN * s.lenN) :
    (s.mrgThenOperands back len).sepLen = s.lenN := by
  rw [State.sepLen, State.mrgThenOperands_nchN]
  exact Nat.div_eq_of_eq_mul_right (Nat.pos_of_ne_zero hn) hlen

/-- SEP of MRG's output puts the planar block at the new DST. -/
theorem State.readF_sep_of_mrg (hn : s.nchN ≠ 0) (hlen : len.toNat = s.nchN * s.lenN) {c k : Nat} (hc : c < s.nchN)
    (hk : k < s.lenN) :
    (s.mrgThenOperands back len).sepStore.readF (back.toNat + c * s.lenN + k) = s.readF (s.srcN + c * s.lenN + k) := by
  have h := (s.mrgThenOperands back len).readF_sepStore_at (c := c) (k := k) (by rwa [State.mrgThenOperands_nchN])
    (by rwa [State.sepLen_mrgThenOperands hn hlen])
  rw [State.sepLen_mrgThenOperands hn hlen, State.mrgThenOperands_nchN, State.readF_mrgThenOperands _ _ _ hk hc] at h
  exact h

/-- SEP of MRG's output drops no sample, its LEN being a multiple of NCH, so `REM` stays. -/
theorem State.rem_sep_of_mrg (hlen : len.toNat = s.nchN * s.lenN) :
    (s.mrgThenOperands back len).sepStore.flags.rem = s.flags.rem := by
  have hmod : (s.mrgThenOperands back len).lenN % s.nchN = 0 := Nat.mod_eq_zero_of_dvd ⟨s.lenN, hlen⟩
  rw [Bool.eq_iff_iff, State.rem_sepStore, State.mrgThenOperands_nchN, hmod, State.mrgThenOperands_flags]
  simp

/-- MRG of SEP's output puts the whole frames of the interleaved block at the new DST. -/
theorem State.readF_mrg_of_sep (hlen : len.toNat = s.sepLen) {i c : Nat} (hi : i < s.sepLen) (hc : c < s.nchN) :
    ((s.sepThenOperands back len).writeWords back.toNat (s.sepThenOperands back len).mrgWords).readF
      (back.toNat + i * s.nchN + c) = s.readF (s.srcN + i * s.nchN + c) := by
  have hL : (s.sepThenOperands back len).lenN = s.sepLen := hlen
  have h := (s.sepThenOperands back len).readF_mrg (i := i) (c := c) (by rwa [hL])
    (by rwa [State.sepThenOperands_nchN])
  rw [hL, State.sepThenOperands_nchN, State.readF_sepThenOperands _ _ _ hc hi] at h
  exact h

end

/-- Settles O51: both commands of a pair completed, and the second one's index map undoes the first one's. In the second
clause word j of the interleaved block is sample j mod NCH of frame j div NCH. -/
theorem separateAndMergeAreInverse : Obligations.SeparateAndMergeAreInverse := by
  constructor
  · intro s t u back len hlen _ hmrg ht hsep hu
    obtain ⟨rfl, hn, -⟩ := completed_of_err_eq_none hmrg ht
    obtain ⟨rfl, -⟩ := completed_of_err_eq_none hsep hu
    exact ⟨fun c hc k hk => State.readF_sep_of_mrg hn hlen hc hk, State.rem_sep_of_mrg hlen⟩
  · intro s t u back len hlen _ hsep ht hmrg hu j hj
    obtain ⟨rfl, hn, -⟩ := completed_of_err_eq_none hsep ht
    obtain ⟨rfl, -⟩ := completed_of_err_eq_none hmrg hu
    have hframe := State.readF_mrg_of_sep (back := back) hlen (Nat.div_lt_of_lt_mul hj)
      (Nat.mod_lt j (Nat.pos_of_ne_zero hn))
    rwa [Nat.add_assoc, Nat.add_assoc, Nat.div_add_mod'] at hframe

end Sys2Proof.Machine
end

section
/-! The WAVE header unit's commands: HBLD, HPCK, HUPK and SCNT (R120 to R126), and that HPCK and HUPK undo each other
(R127). -/

namespace Sys2Proof.Machine

/-! The checks each command passes. -/

/-- With NCH > 0 and a sample count whose file fits the 32-bit sizes HBLD writes the built header. -/
theorem execHbld_of_valid {s : State} (hn : s.nchN ≠ 0) (hl : s.lenN ≤ maxSamples) :
    exec .hbld s = .next { s with hdr := buildHeader s.lenN s.nch } := by
  rw [exec, execHbld, if_neg hn, if_neg (Nat.not_lt.2 hl)]

/-- With the 44 bytes inside BMEM HPCK stores. -/
theorem execHpck_of_fits {s : State} (hd : s.dstN + headerLength ≤ s.capb) : exec .hpck s = .next s.hpckStore := by
  rw [exec, execHpck, if_neg (Nat.not_lt.2 hd)]

/-- With the 44 bytes in the stream and the four tags right HUPK writes the parsed header `p`. -/
theorem execHupk_of_tagged {s : State} {p : Header} (hb : s.srcN + headerLength ≤ s.blenN)
    (hp : s.parseHeader s.srcN = p) (ht : p.tagsOk) : exec .hupk s = .next { s with hdr := p } := by
  subst hp
  rw [exec, execHupk, if_neg (Nat.not_lt.2 hb), if_pos ht]

/-! HBLD. -/

/-- `file_size` of a built header is not cut: 36 + 2·MAX_SAMPLES is below 2^32 (R122). -/
theorem toNat_fileSize_buildHeader {n : Nat} (h : n ≤ maxSamples) (c : Half) :
    (buildHeader n c).fileSize.toNat = 36 + 2 * n := by
  have hlt : 36 + 2 * n < 2 ^ 32 := by unfold maxSamples at h; omega
  exact Nat.mod_eq_of_lt hlt

/-- `data_size` of a built header is not cut (R122). -/
theorem toNat_dataSize_buildHeader {n : Nat} (h : n ≤ maxSamples) (c : Half) :
    (buildHeader n c).dataSize.toNat = 2 * n := by
  have hlt : 2 * n < 2 ^ 32 := by unfold maxSamples at h; omega
  exact Nat.mod_eq_of_lt hlt

/-- Settles O25: the header HBLD builds has eleven fields that are constants or NCH, and two sizes that are not cut. -/
theorem hbldBuildsTheHeader : Obligations.HbldBuildsTheHeader := by
  intro s hn hl
  exact ⟨_, execHbld_of_valid hn hl, rfl, toNat_fileSize_buildHeader hl _, rfl, rfl, rfl, rfl, rfl, rfl, rfl, rfl, rfl,
    rfl, toNat_dataSize_buildHeader hl _, rfl⟩

/-! HPCK. -/

/-- `BLEN` after HPCK: raised to the end of the 44 bytes. -/
theorem State.blenN_hpckStore {s : State} (hc : s.capacitiesOk) (hd : s.dstN + 44 ≤ s.capb) :
    s.hpckStore.blenN = max s.blenN (s.dstN + 44) :=
  State.toNat_raisedBlen hc hd

/-- Byte k of the 44 HPCK stores. -/
theorem State.readB_hpckStore_at (s : State) {k : Nat} (hk : k < 44) :
    s.hpckStore.readB (s.dstN + k) = (headerBytes s.hdr)[k]'(by simpa using hk) := by
  rw [State.readB_hpckStore, State.readB_writeBytes_at]

/-- HPCK's store leaves BMEM outside its 44 bytes as it was. -/
theorem State.readB_hpckStore_outside (s : State) {j : Nat} (h : j < s.dstN ∨ s.dstN + 44 ≤ j) :
    s.hpckStore.readB j = s.readB j := by
  rw [State.readB_hpckStore, State.readB_writeBytes_outside _ _ _ (by rwa [length_headerBytes])]

/-- Settles O26: HPCK stores, and its store has these numbers, frame, `BLEN` and columns. -/
theorem hpckSerialisesTheHeader : Obligations.HpckSerialisesTheHeader := by
  intro s hc hd
  obtain ⟨h0, h1, h2, h3, h4, h5, h6, h7, h8, h9, h10, h11, h12⟩ := s.memRead_headerBytes s.dstN s.hdr
  simp only [← State.memRead_hpckStore] at h0 h1 h2 h3 h4 h5 h6 h7 h8 h9 h10 h11 h12
  exact ⟨_, execHpck_of_fits hd, h0, h1, h2, h3, h4, h5, h6, h7, h8, h9, h10, h11, h12,
    fun _ hj => s.readB_hpckStore_outside hj, State.blenN_hpckStore hc hd, s.hpckStore_eq⟩

/-! HUPK. -/

/-- A 4-byte field register holds a word exactly when `MemRead` gives its number. -/
theorem State.readField32_eq_iff (s : State) (a : Nat) (w : Word) :
    s.readField32 a = w ↔ s.memRead a 4 = w.toNat := by
  rw [← BitVec.toNat_inj, State.readField32_toNat]

/-- The tag check of HUPK on the numbers in the stream (R125). -/
theorem State.parseHeader_tagsOk_iff (s : State) (a : Nat) :
    (s.parseHeader a).tagsOk ↔ s.memRead a 4 = tagRiff.toNat ∧ s.memRead (a + 8) 4 = tagWave.toNat ∧
      s.memRead (a + 12) 4 = tagFmt.toNat ∧ s.memRead (a + 36) 4 = tagData.toNat := by
  simp only [Header.tagsOk, State.parseHeader, State.readField32_eq_iff, Nat.add_zero]

/-- Settles O27: HUPK parses, the tags being right, and each register holds the number at its field's offset. -/
theorem hupkParsesTheHeader : Obligations.HupkParsesTheHeader := by
  intro s hb hriff hwave hfmt hdata
  have htags : (s.parseHeader s.srcN).tagsOk := (s.parseHeader_tagsOk_iff s.srcN).2 ⟨hriff, hwave, hfmt, hdata⟩
  have ⟨hriffId, hwaveTag, hfmtId, hdataId⟩ := htags
  exact ⟨_, execHupk_of_tagged hb rfl htags, hriffId, s.readField32_toNat _, hwaveTag, hfmtId, s.readField32_toNat _,
    s.readField16_toNat _, s.readField16_toNat _, s.readField32_toNat _, s.readField32_toNat _, s.readField16_toNat _,
    s.readField16_toNat _, hdataId, s.readField32_toNat _, rfl⟩

/-! HPCK and HUPK together. -/

/-- The parsed header depends on BMEM only. -/
theorem State.parseHeader_congr {s t : State} (h : ∀ j, t.readB j = s.readB j) (a : Nat) :
    t.parseHeader a = s.parseHeader a := by
  have hread : ∀ b n, t.memRead b n = s.memRead b n := fun b _ => State.memRead_congr fun k _ => h (b + k)
  simp only [State.parseHeader, State.readField32, State.readField16, hread]

/-- Where HPCK stored the header registers HUPK parses them back. -/
theorem State.parseHeader_hpckStore (s : State) : s.hpckStore.parseHeader s.dstN = s.hdr := by
  rw [State.parseHeader_congr s.readB_hpckStore, State.parseHeader_headerBytes]

/-- HUPK from an index where BMEM holds the header's own bytes restores the header registers, whatever they hold by
then. -/
theorem execHupk_restores {s : State} {a : Word} (hb : a.toNat + headerLength ≤ s.blenN)
    (hparse : s.parseHeader a.toNat = s.hdr) (ht : s.hdr.tagsOk) (h : Header) :
    exec .hupk { s with src := a, hdr := h } = .next { s with src := a } := by
  have hsame : ({ s with src := a, hdr := h } : State).parseHeader a.toNat = s.hdr :=
    (State.parseHeader_congr (fun _ => rfl) _).trans hparse
  exact execHupk_of_tagged (s := { s with src := a, hdr := h }) hb hsame ht

/-- The bytes HPCK stores of a header parsed from the stream are the bytes it was parsed from. -/
theorem State.readB_hpckStore_of_parsed {s : State} {a k : Nat} (hs : s.hdr = s.parseHeader a) (hk : k < 44) :
    s.hpckStore.readB (s.dstN + k) = s.readB (a + k) := by
  simp only [s.readB_hpckStore_at hk, hs, State.headerBytes_parseHeader, List.getElem_map, List.getElem_range]

/-- Settles O52: HUPK reads back what HPCK stored below the raised `BLEN`, and HPCK stores again the bytes HUPK
parsed. -/
theorem packAndUnpackHeaderAreInverse : Obligations.PackAndUnpackHeaderAreInverse := by
  constructor
  · intro s hc ht hd
    have hblen : s.dstN + 44 ≤ s.hpckStore.blenN := State.blenN_hpckStore hc hd ▸ Nat.le_max_right _ _
    have hparse : s.hpckStore.parseHeader s.dst.toNat = s.hpckStore.hdr :=
      s.parseHeader_hpckStore.trans s.hpckStore_hdr.symm
    have htags : s.hpckStore.hdr.tagsOk := s.hpckStore_hdr.symm ▸ ht
    exact ⟨_, execHpck_of_fits hd, hblen, execHupk_restores hblen hparse htags⟩
  · intro s t _ hupk ht hd
    obtain ⟨rfl, -⟩ := completed_of_err_eq_none hupk ht
    exact ⟨_, execHpck_of_fits hd, fun _ hk => State.readB_hpckStore_of_parsed (a := s.srcN) rfl hk⟩

/-! SCNT. -/

/-- Settles O28: half of a 32-bit number is not cut to LEN's 32 bits. -/
theorem scntHalvesDataSize : Obligations.ScntHalvesDataSize := by
  intro s
  have hlt : s.hdr.dataSize.toNat / 2 < 2 ^ 32 := Nat.lt_of_le_of_lt (Nat.div_le_self _ _) s.hdr.dataSize.isLt
  refine ⟨_, execScnt_eq s, Nat.mod_eq_of_lt hlt, ?_, rfl⟩
  rw [Flags.addOdd, Bool.or_eq_true, decide_eq_true_iff]

end Sys2Proof.Machine
end

section
/-! Command dispatch and the host's transactions with the registers and the memories (R140 to R149). -/

namespace Sys2Proof.Machine

/-! Command dispatch and the idle block (R140, R141, R149). -/

/-- While a fault is latched a command write is dropped (R166). -/
theorem State.command_of_latched {s : State} (w : Word) (hs : s.err ≠ none) : s.command w = .next s := by
  obtain ⟨r, hr⟩ := Option.ne_none_iff_exists'.1 hs
  simp only [State.command, hr]

/-- With the latch clear, a command write runs the command its word decodes to. -/
theorem State.command_of_decode {s : State} {w : Word} {i : Instr} (hs : s.err = none) (hw : decode w = .ok i) :
    s.command w = exec i s := by
  simp only [State.command, hs, hw]

/-- Settles O4: the step of a `CMD` write is the command write, whose latch check and decoding both pass. -/
theorem stepRunsTheDecodedCommand : Obligations.StepRunsTheDecodedCommand :=
  fun _ _ _ _ hnext hs hw => (step_command hnext).trans (State.command_of_decode hs hw)

/-- Settles O5: the latch is checked before the word is decoded. -/
theorem commandIsDroppedWhileLatched : Obligations.CommandIsDroppedWhileLatched :=
  fun _ w _ hnext hs => (step_command hnext).trans (State.command_of_latched w hs)

/-- Settles O7: a step performs an event of the script only, and none is left. -/
theorem idleBlockKeepsItsState : Obligations.IdleBlockKeepsItsState := by
  intro s hs
  unfold step State.performNext
  rw [hs]

/-- Settles O20: the `CMD` write is dropped where a fault is latched, and runs NOP otherwise. -/
theorem nopChangesNothing : Obligations.NopChangesNothing := by
  refine ⟨fun _ => rfl, fun s rest hnext => ?_⟩
  by_cases hs : s.err = none
  · exact stepRunsTheDecodedCommand s _ .nop rest hnext hs (decode_encode .nop)
  · exact commandIsDroppedWhileLatched s _ rest hnext hs

/-! Writes to `ERR`, `FLAGS`, `BLEN` and `CTRL` (R143 to R146). -/

/-- Settles O10: the write is `State.clearErr`, and commands run on a clear latch. -/
theorem writeErrClearsTheLatch : Obligations.WriteErrClearsTheLatch := by
  intro s v rest h
  refine ⟨_, (step_cons h).trans rfl, rfl, rfl, rfl, rfl, rfl,
    fun i => State.command_of_decode rfl (decode_encode i), fun hs => ?_⟩
  rw [State.clearErr, ← hs]

/-- A bit that a written 1 clears. -/
theorem and_not_eq_ite (bit written : Bool) : (bit && !written) = if written then false else bit := by
  cases written <;> simp

/-- Settles O11: `Flags.w1c` clears each flag by its own bit. -/
theorem writeFlagsClearsWrittenOnes : Obligations.WriteFlagsClearsWrittenOnes :=
  fun _ _ _ h => ⟨_, (step_cons h).trans rfl, rfl, and_not_eq_ite .., and_not_eq_ite .., and_not_eq_ite ..,
    and_not_eq_ite ..⟩

/-- Settles O12: the minimum is at most the written word, so it fits `BLEN` uncut. -/
theorem writeBlenStoresTheMinimum : Obligations.WriteBlenStoresTheMinimum := by
  intro s v rest h
  have hfits : min v.toNat s.capb < 2 ^ 32 := (Nat.min_le_left ..).trans_lt v.isLt
  exact ⟨_, (step_cons h).trans rfl, rfl, (BitVec.toNat_ofNat ..).trans (Nat.mod_eq_of_lt hfits)⟩

/-- `irq` tells whether a fault is latched with the interrupt enabled (R38). -/
theorem State.irq_eq_true_iff (s : State) : s.irq = true ↔ s.err ≠ none ∧ s.ctrl.eie = true := by
  rw [State.irq, Bool.and_eq_true, Option.isSome_iff_ne_none]

/-- RMODE is RTZ exactly where the bit it was written with is 1 (R28). -/
theorem ite_rtz_rne_eq_rtz_iff (b : Bool) : (if b then RoundMode.rtz else .rne) = .rtz ↔ b = true := by
  cases b <;> simp

/-- Settles O13: the written bits are the two fields of `CTRL`, and `irq` reads the new enable. -/
theorem writeCtrlStoresTwoBits : Obligations.WriteCtrlStoresTwoBits :=
  fun _ _ _ h => ⟨_, (step_cons h).trans rfl, rfl, ite_rtz_rne_eq_rtz_iff _, rfl, State.irq_eq_true_iff _⟩

/-! Reads and memory writes at the offset of their target (R142, R147). -/

section
variable {s : State} {rest : List HostEvent}

/-- A read of a target that exists returns what stands there and changes nothing else. -/
theorem step_read_target {t : Target} (hc : s.capacitiesOk) (ht : t.wellFormed s.capf s.capb = true)
    (h : s.script = .read (targetWidth t) (targetOffset t) :: rest) :
    step s = .next { s with script := rest, returned := s.returned ++ [s.targetRead t] } := by
  obtain ⟨-, hf, -, hb⟩ := hc
  rw [step_cons h]
  simp only [perform, locate_targetOffset hf hb ht]
  rfl

/-- `WF` below NF writes its word. -/
theorem step_write_fmem {i : Nat} {w : Word} (hc : s.capacitiesOk) (hi : i < s.capf)
    (h : s.script = .write32 (targetOffset (.fmem i)) w :: rest) :
    step s = .next ({ s with script := rest }.writeF i w) := by
  obtain ⟨-, hf, -, hb⟩ := hc
  have hl : locate s.capf s.capb .word (targetOffset (.fmem i)) = some (.fmem i) :=
    locate_targetOffset hf hb (decide_eq_true hi)
  rw [step_cons h]
  simp only [perform, hl]

/-- `WB` below NB writes its byte. -/
theorem step_write_bmem {j : Nat} {b : Byte} (hc : s.capacitiesOk) (hj : j < s.capb)
    (h : s.script = .write8 (targetOffset (.bmem j)) b :: rest) :
    step s = .next ({ s with script := rest }.writeB j b) := by
  obtain ⟨-, hf, -, hb⟩ := hc
  have hl : locate s.capf s.capb .byte (targetOffset (.bmem j)) = some (.bmem j) :=
    locate_targetOffset hf hb (decide_eq_true hj)
  rw [step_cons h]
  simp only [perform, hl]

end

/-- Settles O16: each transaction lies at the offset of its cell, and a write changes what that cell alone reads as. -/
theorem memoryTransactionsReachOneCell : Obligations.MemoryTransactionsReachOneCell := by
  intro s rest hc
  refine ⟨fun i w hi h => ⟨_, step_write_fmem hc hi h, rfl, ?_, fun k hk => ?_⟩,
    fun i hi h => step_read_target (t := .fmem i) hc (decide_eq_true hi) h,
    fun j b hj h => ⟨_, step_write_bmem hc hj h, rfl, ?_, fun k hk => ?_⟩,
    fun j hj h => step_read_target (t := .bmem j) hc (decide_eq_true hj) h⟩
  · exact (State.readF_writeF ..).trans (if_pos rfl)
  · exact (State.readF_writeF ..).trans (if_neg hk)
  · exact (State.readB_writeB ..).trans (if_pos rfl)
  · exact (State.readB_writeB ..).trans (if_neg hk)

/-! The words the registers read as (R24 to R32). -/

/-- `ERR` as a number: `CODE` below `EOP`. -/
theorem State.toNat_errWord (s : State) : s.errWord.toNat = s.errCode + 2 ^ 8 * s.errEop.toNat := by
  cases hs : s.err with
  | none => simp [State.errWord, State.errCode, State.errEop, hs]
  | some r =>
    have h := s.errWord_raise r.code r.eop
    simpa [State.errWord, State.errCode, State.errEop, hs] using h

/-- `FLAGS` as a number: one binary digit per flag. -/
theorem toNat_flagsWord (f : Flags) :
    (flagsWord f).toNat = f.sat.toNat + 2 * f.nanf.toNat + 4 * f.odd.toNat + 8 * f.rem.toNat := by
  obtain ⟨sat, nanf, odd, rem⟩ := f
  revert sat nanf odd rem
  decide

/-- `CTRL` as a number: RMODE and EIE as binary digits. -/
theorem toNat_ctrlWord (c : Ctrl) :
    (ctrlWord c).toNat = (decide (c.rmode = .rtz)).toNat + 2 * c.eie.toNat := by
  obtain ⟨rmode, eie⟩ := c
  cases rmode <;> cases eie <;> rfl

/-- The header's fields in file order, as numbers (R32). -/
def headerNumbers (h : Header) : List Nat :=
  [h.riffId.toNat, h.fileSize.toNat, h.waveTag.toNat, h.fmtId.toNat, h.fmtSize.toNat, h.formatCode.toNat,
    h.channelCount.toNat, h.sampleRate.toNat, h.byteRate.toNat, h.blockAlign.toNat, h.bitsPerSample.toNat,
    h.dataId.toNat, h.dataSize.toNat]

/-- A 16-bit field zero-extended keeps its number. -/
theorem toNat_zeroExtend (x : Half) : (x.setWidth 32).toNat = x.toNat := BitVec.toNat_setWidth_of_le (by decide)

/-- `HDR[k]` is the k-th field. -/
theorem toNat_headerRegister (h : Header) (k : Fin 13) : (headerRegister h k).toNat = (headerNumbers h)[k.val]! := by
  match k with
  | 0 | 1 | 2 | 3 | 4 | 7 | 8 | 11 | 12 => rfl
  | 5 | 6 | 9 | 10 => exact toNat_zeroExtend _

/-- Settles O8: the step is the read of the register, and each register's word is one of the rules above. -/
theorem registerReadReturnsItsWord : Obligations.RegisterReadReturnsItsWord := by
  intro s r rest hc hr h
  refine ⟨s.regRead r, step_read_target (t := .reg r) hc hr h, ?_⟩
  obtain ⟨-, hf, -, hb⟩ := hc
  cases r with
  | cmd | src | dst | len | blen | reserved => rfl
  | err => exact s.toNat_errWord
  | flags => exact toNat_flagsWord _
  | ctrl => exact toNat_ctrlWord _
  | nch => exact toNat_zeroExtend _
  | capf => exact (BitVec.toNat_ofNat ..).trans (Nat.mod_eq_of_lt (by omega))
  | capb => exact (BitVec.toNat_ofNat ..).trans (Nat.mod_eq_of_lt (by omega))
  | hdr k => exact toNat_headerRegister _ k

end Sys2Proof.Machine
end

section
/-! The file sequences WAVWRITE and WAVREAD (R150 to R154): what one transaction of a script does to the block, then
each run through named states of the block. -/

namespace Sys2Proof.Machine

/-! One transaction of a running script, on the block apart from the host's side of the port. -/

/-- A state is its block with the script and the returned data it has. -/
theorem State.eq_withHost {s : State} {events : List HostEvent} (h : s.script = events) :
    s = s.withHost events s.returned := by
  rw [← h]
  rfl

/-- A word access at a register's offset is placed at the register, whatever the capacities. -/
theorem locate_regOffset {r : Reg} (hr : r.wellFormed = true) (capf capb : Nat) :
    locate capf capb .word (targetOffset (.reg r)) = some (.reg r) := by
  obtain ⟨slot, rfl, hoff⟩ := exists_slot hr
  have hlt := slot.isLt
  exact locate_reg slot (((offset_eq_ofNat_iff (by omega)).1 rfl).trans hoff)

section
variable {b b' : State} {k : Nat} {events : List HostEvent} {data : List Response}

/-- A register write with another host side gives the same outcome with that host side. -/
theorem State.regWrite_withHost (b : State) (events : List HostEvent) (data : List Response) (r : Reg) (v : Word) :
    (b.withHost events data).regWrite r v = mapNext (State.withHost · events data) (b.regWrite r v) := by
  cases r with
  | cmd =>
    cases hb : b.err with
    | some f =>
      have hlatched : b.err ≠ none := by simp [hb]
      calc (b.withHost events data).command v
          = .next (b.withHost events data) := State.command_of_latched v hlatched
        _ = mapNext (State.withHost · events data) (b.command v) := by rw [State.command_of_latched v hlatched]; rfl
    | none =>
      cases hv : decode v with
      | ok i =>
        calc (b.withHost events data).command v
            = exec i (b.withHost events data) := State.command_of_decode hb hv
          _ = mapNext (State.withHost · events data) (exec i b) := exec_withHost b events data i
          _ = mapNext (State.withHost · events data) (b.command v) := by rw [State.command_of_decode hb hv]
      | error e => simp only [State.regWrite, State.command, State.withHost, hb, hv]; rfl
  | _ => rfl

/-- The event next on the script, then the rest of the run. -/
theorem run_event {e : HostEvent} {data' : List Response}
    (h : perform e (b.withHost events data) = .next (b'.withHost events data')) :
    core.run (k + 1) (b.withHost (e :: events) data) = core.run k (b'.withHost events data') :=
  run_succ core ((step_cons (s := b.withHost (e :: events) data) rfl).trans h)

/-- A write to a register that exists. -/
theorem run_regWrite {r : Reg} {v : Word} (hr : r.wellFormed = true) (h : b.regWrite r v = .next b') :
    core.run (k + 1) (b.withHost (encodeLine (.wr r v) :: events) data) = core.run k (b'.withHost events data) := by
  refine run_event ?_
  simp only [encodeLine, perform, locate_regOffset hr, State.regWrite_withHost, h]
  rfl

/-- A command, on a block without a latched fault. -/
theorem run_command {i : Instr} (hb : b.err = none) (h : exec i b = .next b') :
    core.run (k + 1) (b.withHost (encodeLine (.cmd i) :: events) data) = core.run k (b'.withHost events data) :=
  run_regWrite (r := .cmd) rfl ((State.command_of_decode hb (decode_encode i)).trans h)

/-- The read of `ERR` on a block without a latched fault returns 0. -/
theorem run_readErr (hb : b.err = none) :
    core.run (k + 1) (b.withHost (encodeLine (.rd .err) :: events) data) =
      core.run k (b.withHost events (data ++ [.word 0])) := by
  have hword : (b.withHost events data).errWord = 0 := by
    simp only [State.errWord, State.errCode, State.errEop, State.withHost, hb]
    rfl
  refine run_event ?_
  simp only [encodeLine, perform, locate_regOffset (r := .err) rfl, State.targetRead, State.regRead, hword]
  rfl

end

/-- The block with `DST` written anew. -/
def State.withDst (s : State) (d : Word) : State := { s with dst := d }

@[simp] theorem State.withDst_blenN (s : State) (d : Word) : (s.withDst d).blenN = s.blenN := rfl

@[simp] theorem State.readB_withDst (s : State) (d : Word) (j : Nat) : (s.withDst d).readB j = s.readB j := rfl

/-! WAVWRITE (R150, R151). -/

section
variable (s : State) (a n c : Word)

/-- The block before HBLD: `BLEN` = 0 and the operands written. -/
def State.beforeHbld : State := { s.writeBlen 0 with src := a, len := n, nch := c.extractLsb' 0 16 }

/-- The block before HPCK: the header built, and `DST` at its place. -/
def State.beforeHpck : State :=
  { s.beforeHbld a n c with hdr := buildHeader n.toNat (c.extractLsb' 0 16), dst := 0 }

/-- The block before QNT: the header packed, and `DST` behind it. -/
def State.beforeQnt : State := (s.beforeHpck a n c).hpckStore.withDst (BitVec.ofNat 32 headerLength)

/-- The block that WAVWRITE leaves. -/
def State.wavWritten : State := (s.beforeQnt a n c).qntStore

@[simp] theorem State.beforeHpck_dstN : (s.beforeHpck a n c).dstN = 0 := rfl

@[simp] theorem State.beforeHpck_blenN : (s.beforeHpck a n c).blenN = 0 := by
  simp [State.beforeHpck, State.beforeHbld, State.blenN]

/-- Up to QNT WAVWRITE writes the operand registers, `BLEN`, the header registers and BMEM, and nothing else. -/
theorem State.beforeQnt_eq :
    s.beforeQnt a n c = { s with
      src := a, dst := 44, len := n, nch := c.extractLsb' 0 16, hdr := buildHeader n.toNat (c.extractLsb' 0 16),
      blen := (s.beforeQnt a n c).blen, bmem := (s.beforeQnt a n c).bmem } := by
  rw [State.beforeQnt, State.hpckStore_eq]
  rfl

/-- QNT writes `BLEN` and BMEM again, and its two flags. -/
theorem State.wavWritten_eq :
    s.wavWritten a n c = { s with
      src := a, dst := 44, len := n, nch := c.extractLsb' 0 16, hdr := buildHeader n.toNat (c.extractLsb' 0 16),
      blen := (s.wavWritten a n c).blen, bmem := (s.wavWritten a n c).bmem,
      flags := { s.flags with
        sat := (s.wavWritten a n c).flags.sat, nanf := (s.wavWritten a n c).flags.nanf } } := by
  rw [State.wavWritten, State.qntStore_eq, State.qntFlags, State.beforeQnt_eq]
  rfl

/-- QNT finds in FMEM the words that stood there at first. -/
theorem State.readF_beforeQnt (i : Nat) : (s.beforeQnt a n c).readF i = s.readF i := by
  rw [State.beforeQnt_eq]
  rfl

/-- HPCK writes the bytes 0 to 43 only. -/
theorem State.readB_beforeQnt {j : Nat} (h : 44 ≤ j) : (s.beforeQnt a n c).readB j = s.readB j := by
  rw [State.beforeQnt, State.readB_withDst, State.readB_hpckStore_outside]
  · rfl
  · rw [State.beforeHpck_dstN]
    exact .inr (by omega)

/-- HPCK leaves the bytes of the built header there. -/
theorem State.readB_beforeQnt_header {k : Nat} (hk : k < 44) :
    (headerBytes (buildHeader n.toNat (c.extractLsb' 0 16)))[k]? = some ((s.beforeQnt a n c).readB k) := by
  have hbyte := (s.beforeHpck a n c).readB_hpckStore_at hk
  rw [State.beforeHpck_dstN, Nat.zero_add] at hbyte
  rw [State.beforeQnt, State.readB_withDst, hbyte]
  exact List.getElem?_eq_getElem _

/-- The operands QNT runs on: `SRC`, `DST` and `LEN`, and the rounding rule of the start. -/
theorem State.operands_beforeQnt :
    (s.beforeQnt a n c).srcN = a.toNat ∧ (s.beforeQnt a n c).dstN = 44 ∧ (s.beforeQnt a n c).lenN = n.toNat ∧
      (s.beforeQnt a n c).ctrl = s.ctrl := by
  rw [State.beforeQnt_eq]
  exact ⟨rfl, rfl, rfl, rfl⟩

/-- The bytes QNT leaves behind the header: two per sample. -/
theorem State.readB_wavWritten_sample {i : Nat} (hi : i < n.toNat) :
    ((s.wavWritten a n c).readB (44 + 2 * i), (s.wavWritten a n c).readB (45 + 2 * i)) =
      pack16 (quant (s.readF (a.toNat + i)) s.ctrl.rmode).q := by
  obtain ⟨hsrc, hdst, hlen, hctrl⟩ := s.operands_beforeQnt a n c
  obtain ⟨hlow, hhigh⟩ := (s.beforeQnt a n c).readB_qntStore_at (i := i) (by rwa [hlen])
  rw [hdst, hsrc, hctrl, State.readF_beforeQnt] at hlow hhigh
  rw [show 45 + 2 * i = 44 + 2 * i + 1 by omega, State.wavWritten, hlow, hhigh]

/-- QNT writes from byte 44 on, `2n` bytes. -/
theorem State.readB_wavWritten_outside {j : Nat} (h : j < 44 ∨ 44 + 2 * n.toNat ≤ j) :
    (s.wavWritten a n c).readB j = (s.beforeQnt a n c).readB j := by
  obtain ⟨-, hdst, hlen, -⟩ := s.operands_beforeQnt a n c
  rw [State.wavWritten, State.readB_qntStore, State.readB_writeBytes_outside]
  rwa [State.length_qntBytes, hdst, hlen]

end

section
variable {s : State} {a n c : Word}

/-- The first 44 bytes are the header image that HPCK packed. -/
theorem State.readB_wavWritten_header (hn : n.toNat ≤ maxSamples) {k : Nat} (hk : k < 44) :
    (headerImage n.toNat (c.extractLsb' 0 16 : Half).toNat)[k]? = some ((s.wavWritten a n c).readB k) := by
  rw [← headerBytes_buildHeader _ _ hn, State.readB_beforeQnt_header s a n c hk,
    State.readB_wavWritten_outside _ _ _ _ (.inl hk)]

/-- `BLEN` before QNT: the end of the header, HPCK having started from `BLEN` = 0. -/
theorem State.blenN_beforeQnt (hc : s.capacitiesOk) : (s.beforeQnt a n c).blenN = 44 := by
  have ⟨_, _, hroom, _⟩ := hc
  rw [State.beforeQnt, State.withDst_blenN, State.blenN_hpckStore (s := s.beforeHpck a n c) hc]
  · simp
  · rwa [State.beforeHpck_dstN, Nat.zero_add]

/-- `BLEN` after WAVWRITE: the end of the samples. -/
theorem State.blenN_wavWritten (hc : s.capacitiesOk) (hb : 44 + 2 * n.toNat ≤ s.capb) :
    (s.wavWritten a n c).blenN = 44 + 2 * n.toNat := by
  obtain ⟨-, hdst, hlen, -⟩ := s.operands_beforeQnt a n c
  have hcap : (s.beforeQnt a n c).capacitiesOk := by rw [State.beforeQnt_eq]; exact hc
  have hroom : (s.beforeQnt a n c).dstN + 2 * (s.beforeQnt a n c).lenN ≤ (s.beforeQnt a n c).capb := by
    rw [hdst, hlen, State.beforeQnt_eq]; exact hb
  rw [State.wavWritten, State.blenN_qntStore hcap hroom, State.blenN_beforeQnt hc, hdst, hlen]
  split <;> omega

/-- The ten transactions of WAVWRITE, no command of them faulting. -/
theorem run_wavWrite {rest : List HostEvent} {data : List Response} (hs : s.err = none)
    (hnch : (c.extractLsb' 0 16 : Half).toNat ≠ 0) (hn : n.toNat ≤ maxSamples) (ha : a.toNat + n.toNat ≤ s.capf)
    (hb : 44 + 2 * n.toNat ≤ s.capb) :
    core.run 10 (s.withHost (expandLines (wavWriteLines a n c) ++ rest) data) =
      .next ((s.wavWritten a n c).withHost rest (data ++ [.word 0])) := by
  have hhpck : exec .hpck (s.beforeHpck a n c) = .next (s.beforeHpck a n c).hpckStore :=
    execHpck_of_fits (by rw [State.beforeHpck_dstN, Nat.zero_add]; exact (Nat.le_add_right ..).trans hb)
  have hqnt : exec .qnt (s.beforeQnt a n c) = .next (s.wavWritten a n c) := by
    refine execQnt_of_inRange ?_ ?_ <;> rw [State.beforeQnt_eq]
    · exact ha
    · exact hb
  have herr : (s.beforeQnt a n c).err = none := by rw [State.beforeQnt_eq]; exact hs
  have herr' : (s.wavWritten a n c).err = none := by rw [State.wavWritten_eq]; exact hs
  simp only [wavWriteLines, expandLines, List.map_cons, List.map_nil, List.cons_append, List.nil_append]
  rw [run_regWrite (r := .blen) rfl rfl, run_regWrite (r := .src) rfl rfl, run_regWrite (r := .len) rfl rfl,
    run_regWrite (r := .nch) (b' := s.beforeHbld a n c) rfl rfl,
    run_command (b := s.beforeHbld a n c) hs (execHbld_of_valid hnch hn),
    run_regWrite (r := .dst) (b' := s.beforeHpck a n c) rfl rfl, run_command (b := s.beforeHpck a n c) hs hhpck,
    run_regWrite (r := .dst) (b' := s.beforeQnt a n c) rfl rfl, run_command herr hqnt, run_readErr herr']
  rfl

end

/-- Settles O53: no command of the ten faults, and the block they leave has these bytes, `BLEN` and columns; NCH holds
C uncut. -/
theorem wavWriteLeavesTheFile : Obligations.WavWriteLeavesTheFile := by
  intro s a n c rest hc hs hscript hc1 hc16 hn ha hb
  have hnch : (c.extractLsb' 0 16 : Half).toNat = c.toNat := by
    rw [BitVec.extractLsb'_toNat, Nat.shiftRight_zero, Nat.mod_eq_of_lt hc16]
  have hrun := run_wavWrite (rest := rest) (data := s.returned) hs (by rw [hnch]; omega) hn ha hb
  rw [← State.eq_withHost hscript] at hrun
  have hblen := State.blenN_wavWritten (a := a) (c := c) hc hb
  have hheader := fun k hk => State.readB_wavWritten_header (s := s) (a := a) (c := c) hn (k := k) hk
  have hsample := fun i hi => s.readB_wavWritten_sample a n c (i := i) hi
  have hframe := fun j (hj : 44 + 2 * n.toNat ≤ j) => (s.readB_wavWritten_outside a n c (.inr hj)).trans
    (s.readB_beforeQnt a n c (j := j) (by omega))
  have hcols := s.wavWritten_eq a n c
  rw [hnch] at hheader
  generalize s.wavWritten a n c = w at hrun hblen hheader hsample hframe hcols
  refine ⟨_, hrun, hheader, hsample, hframe, hblen, ?_⟩
  rw [hcols]
  exact ⟨rfl, rfl, rfl, hnch, rfl, rfl⟩

/-! WAVREAD (R153, R154). -/

/-- The block after HUPK: the header parsed from byte 0. -/
def State.afterHupk (s : State) : State := { s with src := 0, hdr := s.parseHeader 0 }

section
variable (s : State) (d : Word)

/-- The block before DQT: what SCNT made of `data_size`, and the operands written. -/
def State.beforeDqt : State :=
  { s.afterHupk with
    src := BitVec.ofNat 32 headerLength, dst := d,
    len := BitVec.ofNat 32 ((s.parseHeader 0).dataSize.toNat / 2),
    flags := s.flags.addOdd (decide ((s.parseHeader 0).dataSize.toNat % 2 = 1)) }

/-- The block that WAVREAD leaves. -/
def State.wavDecoded : State := (s.beforeDqt d).writeWords d.toNat (s.beforeDqt d).dqtWords

/-- DQT, the last command of WAVREAD, writes FMEM only. -/
theorem State.wavDecoded_eq :
    s.wavDecoded d = { s.beforeDqt d with fmem := (s.wavDecoded d).fmem } :=
  State.writeWords_eq ..

/-- `data_size` of the header at byte 0 stands in the bytes 40 to 43 (R80). -/
theorem State.toNat_dataSize_parseHeader : (s.parseHeader 0).dataSize.toNat = s.memRead 40 4 := s.readField32_toNat 40

/-- The sample count: half of `data_size`, not cut to `LEN`'s 32 bits. -/
theorem State.lenN_beforeDqt : (s.beforeDqt d).lenN = s.memRead 40 4 / 2 := by
  have hlt := (s.parseHeader 0).dataSize.isLt
  rw [← s.toNat_dataSize_parseHeader]
  exact Nat.mod_eq_of_lt (Nat.lt_of_le_of_lt (Nat.div_le_self _ _) hlt)

/-- `ODD` before DQT: set when it was, or when `data_size` is odd. -/
theorem State.odd_beforeDqt :
    (s.beforeDqt d).flags.odd = true ↔ s.flags.odd = true ∨ s.memRead 40 4 % 2 = 1 := by
  rw [State.beforeDqt, Flags.addOdd, Bool.or_eq_true, decide_eq_true_iff, State.toNat_dataSize_parseHeader]

/-- The word WAVREAD decodes for sample i. -/
theorem State.readF_wavDecoded_sample {i : Nat} (hi : i < s.memRead 40 4 / 2) :
    (s.wavDecoded d).readF (d.toNat + i) =
      dequant (unpack16 (s.readB (44 + 2 * i)) (s.readB (45 + 2 * i))) := by
  rw [show 45 + 2 * i = 44 + 2 * i + 1 by omega]
  exact (s.beforeDqt d).readF_dqt (by rwa [State.lenN_beforeDqt])

/-- WAVREAD leaves FMEM outside its samples as it was. -/
theorem State.readF_wavDecoded_outside {k : Nat} (h : k < d.toNat ∨ d.toNat + s.memRead 40 4 / 2 ≤ k) :
    (s.wavDecoded d).readF k = s.readF k := by
  rw [State.wavDecoded, State.readF_writeWords_outside]
  · rfl
  · rwa [State.length_dqtWords, State.lenN_beforeDqt]

end

/-- The seven transactions of WAVREAD, no command of them faulting. -/
theorem run_wavRead {s : State} {d : Word} {rest : List HostEvent} {data : List Response} (hs : s.err = none)
    (hb : 44 ≤ s.blenN) (ht : (s.parseHeader 0).tagsOk) (hcount : 44 + 2 * (s.memRead 40 4 / 2) ≤ s.blenN)
    (hd : d.toNat + s.memRead 40 4 / 2 ≤ s.capf) :
    core.run 7 (s.withHost (expandLines (wavReadLines d) ++ rest) data) =
      .next ((s.wavDecoded d).withHost rest (data ++ [.word 0])) := by
  have hhupk : exec .hupk { s with src := 0 } = .next s.afterHupk :=
    execHupk_of_tagged (s := { s with src := 0 }) (by change 0 + 44 ≤ s.blenN; rwa [Nat.zero_add])
      (State.parseHeader_congr (fun _ => rfl) 0) ht
  have hdqt : exec .dqt (s.beforeDqt d) = .next (s.wavDecoded d) := by
    refine execDqt_of_inRange ?_ ?_ <;> rw [State.lenN_beforeDqt]
    · exact hcount
    · exact hd
  have herr : (s.wavDecoded d).err = none := by rw [State.wavDecoded_eq]; exact hs
  simp only [wavReadLines, expandLines, List.map_cons, List.map_nil, List.cons_append, List.nil_append]
  rw [run_regWrite (r := .src) rfl rfl, run_command (b := { s with src := 0 }) hs hhupk,
    run_command (b := s.afterHupk) (i := .scnt) hs (execScnt_eq _), run_regWrite (r := .src) rfl rfl,
    run_regWrite (r := .dst) (b' := s.beforeDqt d) rfl rfl, run_command (b := s.beforeDqt d) hs hdqt,
    run_readErr herr]
  rfl

/-- Settles O54: no command of the seven faults, and the block they leave has these words, header, `ODD` and columns. -/
theorem wavReadReturnsTheSamples : Obligations.WavReadReturnsTheSamples := by
  rintro s d _ rest hs hscript hb ht rfl hcount hd
  have hrun := run_wavRead (rest := rest) (data := s.returned) hs hb ht hcount hd
  rw [← State.eq_withHost hscript] at hrun
  have hsample := fun i hi => s.readF_wavDecoded_sample d (i := i) hi
  have hframe := fun k hk => s.readF_wavDecoded_outside d (k := k) hk
  have hcols := s.wavDecoded_eq d
  generalize s.wavDecoded d = w at hrun hsample hframe hcols
  refine ⟨_, hrun, ?_, ?_, hsample, hframe, ?_, ?_⟩ <;> rw [hcols]
  · rfl
  · exact s.lenN_beforeDqt d
  · exact s.odd_beforeDqt d
  · rfl

end Sys2Proof.Machine
end

section
/-! The fault table: each command makes the checks of its rows in their order, the first that fails decides, and a fault
writes `ERR` only (R161, R164, R165). -/

namespace Sys2Proof.Machine

/-! Rows against a chain of checks. -/

/-- What the rows demand of the answer `out` of command `i` in state `s`: the fault of the first failing row, or where
none fails a next state with the latch as it was. -/
def FollowsRows (i : Instr) (s : State) (rows : List (Bool × ErrCode)) (out : Host.Outcome State Fault Refusal) : Prop :=
  match firstFault rows with
  | some code => out = s.faulted code i
  | none => ∃ t, out = .next t ∧ t.err = s.err

section
variable {i : Instr} {s t : State} {rows : List (Bool × ErrCode)} {out : Host.Outcome State Fault Refusal}

/-- With no row left, a command that keeps the latch follows. -/
theorem FollowsRows.nil (h : t.err = s.err) : FollowsRows i s [] (.next t) := ⟨t, rfl, h⟩

/-- A first row is followed by making its check first: it decides where it fails, else the other rows do. -/
theorem FollowsRows.cons {p q : Prop} [Decidable p] [Decidable q] {code : ErrCode} (hqp : q ↔ p)
    (h : FollowsRows i s rows out) :
    FollowsRows i s ((decide p, code) :: rows) (if q then s.faulted code i else out) := by
  by_cases hp : p
  · simp [FollowsRows, firstFault, hqp, hp]
  · simpa [FollowsRows, firstFault, hqp, hp] using h

end

/-! The checks of the two commands that do not write their rows word for word. -/

/-- Two ranges of one length overlap when that length is not 0 and each starts before the other's end. -/
theorem rangesOverlap_same_length {a b m : Nat} : rangesOverlap a m b m ↔ m > 0 ∧ a < b + m ∧ b < a + m :=
  and_self_left

/-- HUPK's tag check fails when one of the four numbers in the stream is not its tag's. -/
theorem State.not_tagsOk_parseHeader_iff (s : State) (a : Nat) :
    ¬ (s.parseHeader a).tagsOk ↔ s.memRead a 4 ≠ 0x46464952 ∨ s.memRead (a + 8) 4 ≠ 0x45564157 ∨
      s.memRead (a + 12) 4 ≠ 0x20746D66 ∨ s.memRead (a + 36) 4 ≠ 0x61746164 := by
  rw [State.parseHeader_tagsOk_iff, not_and_or, not_and_or, not_and_or]
  rfl

/-- Every command follows its rows of the table. -/
theorem exec_followsRows (i : Instr) (s : State) : FollowsRows i s (faultRows s i) (exec i s) := by
  cases i
  case nop => exact .nil rfl
  case qnt => exact .cons .rfl (.cons .rfl (.nil s.qntStore_err))
  case dqt => exact .cons .rfl (.cons .rfl (.nil (s.writeWords_err _ _)))
  case mrg =>
    exact .cons .rfl (.cons rangesOverlap_same_length (.cons .rfl (.cons .rfl (.nil (s.writeWords_err _ _)))))
  case sep => exact .cons .rfl (.cons .rfl (.cons .rfl (.cons .rfl (.nil s.sepStore_err))))
  case hbld => exact .cons .rfl (.cons .rfl (.nil rfl))
  case hpck => exact .cons .rfl (.nil s.hpckStore_err)
  case hupk =>
    rw [exec, execHupk, ← ite_not (p := (s.parseHeader s.srcN).tagsOk)]
    exact .cons .rfl (.cons (s.not_tagsOk_parseHeader_iff _) (.nil rfl))
  case scnt => exact .nil rfl

/-- Settles O29: each command follows its rows, and a word that is none of the nine latches its opcode byte. -/
theorem everyFaultIsOfTheTable : Obligations.EveryFaultIsOfTheTable :=
  ⟨exec_followsRows, fun _ _ hs hw => State.command_of_ne_encode hs (ne_encode_iff.2 hw)⟩

/-- Settles O30: a failing row decides on the fault, and where none fails the latch stays clear. -/
theorem faultWritesErrOnly : Obligations.FaultWritesErrOnly := by
  intro i s hs
  have hrows := exec_followsRows i s
  unfold FollowsRows at hrows
  split at hrows
  · next code _ => exact ⟨_, hrows, .inr ⟨code, rfl⟩⟩
  · obtain ⟨t, ht, herr⟩ := hrows
    exact ⟨t, ht, .inl (herr.trans hs)⟩

end Sys2Proof.Machine
end

section
/-! Reset: the step of `rst` (R180, R182). -/

namespace Sys2Proof.Machine

/-- After `rst` FMEM lists nothing, so each index reads as its free value of the next reset number. -/
@[simp] theorem State.readF_rst (s : State) (i : Nat) : s.rst.readF i = Config.fmemFree (s.epoch + 1) i := rfl

/-- After `rst` BMEM lists nothing, so each index reads as its free value of the next reset number. -/
@[simp] theorem State.readB_rst (s : State) (j : Nat) : s.rst.readB j = Config.bmemFree (s.epoch + 1) j := rfl

/-- `rst` clears both the latch and its enable, so `irq` is low. -/
@[simp] theorem State.rst_irq (s : State) : s.rst.irq = false := rfl

/-- `rst` clears the latch, so `ERR` reads as zero. -/
@[simp] theorem State.rst_errWord (s : State) : s.rst.errWord = 0 := rfl

/-- The reset value of `FLAGS`: no flag is up (R41). -/
theorem flagsWord_reset : flagsWord ⟨false, false, false, false⟩ = 0 := by decide

/-- The reset value of `CTRL`: RNE has number 0, and the interrupt is disabled (R41). -/
theorem ctrlWord_reset : ctrlWord ⟨.rne, false⟩ = 0 := by decide

/-- The step of `rst` is the reset of the block with the rest of the script. -/
theorem step_rst {s : State} {rest : List HostEvent} (hs : s.script = .rst :: rest) :
    step s = .next { s with script := rest }.rst := step_cons hs

/-- Settles O18: the step is `State.rst`, whose registers are those of the power-up state and whose memories list
nothing. -/
theorem rstPutsRegistersToReset : Obligations.RstPutsRegistersToReset := by
  intro s rest hs
  refine ⟨_, step_rst hs, ?_⟩
  simp [flagsWord_reset, ctrlWord_reset, headerRegister_zero]

end Sys2Proof.Machine
end
